-- ==== Sys2Proof/Word.lean ====
section
/-! DEFINITION. The word types of the engine: the integers at its ports (`U n`) and the BitSequences inside it (`Seq n` in the spec, `BitSeq n` here). -/

namespace Sys2Proof

/-- The 8-bit block, `BLOCK_W` of rule R4: a `U 8`. -/
abbrev Block := BitVec 8

/-- The 6-bit key, `KEY_W` of rule R4: a `U 6`. -/
abbrev Key := BitVec 6

/-- The 15-bit command word `CMD15` of rules R34 and R35. -/
abbrev CmdWord := BitVec 15

/-- `Seq n` of rule R5: an ordered sequence of `n` bits, the length part of the type.
`s[0]` is the most significant element (rule R6); `true` is the bit 1. -/
abbrev BitSeq (n : Nat) := Vector Bool n

end Sys2Proof
end

