-- ==== Sys2Proof/Config.lean ====
section
/-! DEFINITION. What the spec leaves open in value: the bits of `DOUT` while nobody may rely on them. -/

namespace Sys2Proof

/-- The bits `DOUT` holds while rule R21 (after reset) and rule R115 (between acceptance and completion)
leave them unspecified; the n-th time the register becomes unspecified it holds `Config.unspecifiedDout n`,
so it may be "a different one after each reset". A free value: it has no body, nothing can evaluate it.
DESIGN CHOICE, log entry 1. -/
opaque Config.unspecifiedDout : Nat → BitVec 8

end Sys2Proof
end

