-- ==== Sys2Proof/Syntax.lean ====
section
/-! DEFINITION. The commands of the engine: one constructor per row of spec/opcode_table.json (rule R36). -/

namespace Sys2Proof

/-- A command: an operation with its two operands (rules R36, R37), in the argument order of rule R41. -/
inductive Instr where
  /-- `ENC block, key` (rule R86). -/
  | enc (block : Block) (key : Key)
  /-- `DEC block, key` (rule R87). -/
  | dec (block : Block) (key : Key)
  deriving DecidableEq, Repr

end Sys2Proof
end

