-- ==== Sys2Proof/Machine/State.lean ====
section
/-! DEFINITION. The state of the engine as plain data, the reasons a step can stop, and the state after reset. -/

namespace Sys2Proof.Machine

/-- The input ports at one instant (rule R28). -/
structure Ports where
  /-- `rst`: the reset request. -/
  rst      : Bool
  /-- `cmd_valid`: the host presents a command on the three ports below. -/
  cmdValid : Bool
  /-- `cmd_op`: 0 = ENC, 1 = DEC. -/
  cmdOp    : BitVec 1
  /-- `cmd_key`. -/
  cmdKey   : Key
  /-- `cmd_block`. -/
  cmdBlock : Block
  deriving DecidableEq, Repr

/-- What happens next at the engine's boundary (rules R12, R29): the host drives the ports or uses the result; a
command the engine has accepted completes. DESIGN CHOICE, log entry 3. -/
inductive Event where
  /-- The ports at an instant; a command accepted here also completes within the step (rules R12, R120). -/
  | instant (p : Ports)
  /-- The ports at an instant; a command accepted here is still uncompleted when the step ends (rule R12). -/
  | acceptance (p : Ports)
  /-- `LAT` has elapsed: the command in progress, if any, completes (rules R12, R120). -/
  | completion
  /-- The host uses `DOUT` as a result (rules R101, R115). -/
  | useDout
  deriving DecidableEq, Repr

/-- The state. `dout` and `done` are the architectural registers, the whole of them (rule R10). `inFlight` is the
sampled command that lives from acceptance to completion (rules R13, R26, R29). `agenda` and `freeIx` are the model's
own: what the outside does next, and a counter of the free values used so far. -/
structure State where
  /-- `DOUT`, 8 bits (rule R11). -/
  dout     : BitVec 8
  /-- `DONE`, 1 bit (rule R12). -/
  done     : Bool
  /-- The command accepted and not yet completed. -/
  inFlight : Option Instr
  /-- The events to come, the next one first. -/
  agenda   : List Event
  /-- How many times `DOUT` has become unspecified. -/
  freeIx   : Nat
  deriving DecidableEq, Repr

/-- The faults of the engine: there are none, "the complete list of exception causes is therefore empty" (rule R98). -/
inductive Fault where
  deriving DecidableEq, Repr

/-- The refusals at the model's boundary. -/
inductive Refusal where
  /-- Raised by an arm of `exec` whose instruction has no meaning yet; no arm is one now. Safe. -/
  | notModelled (mnemonic : String)
  /-- Raised by a step in which the host uses `DOUT` while `DONE = 0` (rule R101). Safe: no value is given. -/
  | doutNotValid
  deriving DecidableEq, Repr

/-- The machine right after reset (rules R21, R108): `DONE = 0`, no command in progress, `DOUT` unspecified, that is
the first free value (log entry 1), and nothing presented yet (log entry 4). -/
def State.reset : State where
  dout     := Config.unspecifiedDout 0
  done     := false
  inFlight := none
  agenda   := []
  freeIx   := 1

end Sys2Proof.Machine
end

