-- ==== Sys2Proof/Machine/Flags.lean ====
section
/-! DEFINITION. The one flag of the engine, `DONE` (rule R12): there are no condition codes. -/

namespace Sys2Proof.Machine

/-- `DONE <- 1`, at completion. -/
def setDone (s : State) : State := { s with done := true }

/-- `DONE <- 0`, at acceptance and at reset. -/
def clearDone (s : State) : State := { s with done := false }

/-- `rsp_valid`: the value of `DONE` (rule R28). -/
def rspValid (s : State) : Bool := s.done

end Sys2Proof.Machine
end

