-- ==== Sys2Proof/Machine/Ops.lean ====
section
/-! DEFINITION. The named operations on the state: acceptance, completion, reset, the output ports, and the host's
use of the result. There is no memory to read or write (rule R22), no exception to take and no return from one
(rules R98, R104), so no operation for either stands here. -/

namespace Sys2Proof.Machine

/-- `DOUT` becomes unspecified (rules R21, R115): it holds the next free value. -/
def forgetDout (s : State) : State :=
  { s with dout := Config.unspecifiedDout s.freeIx, freeIx := s.freeIx + 1 }

/-- The engine's latch for the command in progress. -/
def setInFlight (i : Option Instr) (s : State) : State := { s with inFlight := i }

/-- The events still to come. -/
def setAgenda (events : List Event) (s : State) : State := { s with agenda := events }

/-- `DOUT <- result`. -/
def writeDout (result : BitVec 8) (s : State) : State := { s with dout := result }

/-- Acceptance of a command (rules R12, R26, R115): its fields are sampled together, `DONE <- 0`, and `DOUT` is
unspecified until the completion. -/
def accept (i : Instr) (s : State) : State := setInFlight (some i) (clearDone (forgetDout s))

/-- Completion of a command (rules R12, R26): `DOUT <- result` and `DONE <- 1` together; nothing stays in progress. -/
def complete (result : BitVec 8) (s : State) : State := setInFlight none (setDone (writeDout result s))

/-- Reset (rules R108, R110): `DONE <- 0`, `DOUT` unspecified, a command in progress abandoned. -/
def applyReset (s : State) : State := setInFlight none (clearDone (forgetDout s))

/-- `cmd_ready` (rules R28, R29): 0 from an acceptance until the matching completion. -/
def cmdReady (s : State) : Bool := s.inFlight.isNone

/-- `rsp_data` as a value the host may use (rules R28, R101): the value of `DOUT`, and none while `DONE = 0`. -/
def rspData (s : State) : Option (BitVec 8) := if s.done then some s.dout else none

/-- The host uses `DOUT` (rules R26, R101): nothing changes; while `DONE = 0` the action is refused. -/
def hostUseDout (s : State) : Host.Outcome State Fault Refusal :=
  match rspData s with
  | some _ => .next s
  | none => .refused .doutNotValid

end Sys2Proof.Machine
end

