-- ==== Sys2Proof/Machine/Expansion.lean ====
section
/-! DEFINITION. The expansion stage (spec/42_expansion.md). -/

namespace Sys2Proof.Machine

/-- `expansionBox` (rule R63). -/
def expansionBox (half : BitSeq 4) : BitSeq 6 := #v[half[3], half[0], half[1], half[2], half[3], half[0]]

end Sys2Proof.Machine
end

