-- ==== Sys2Proof/Machine/Sequence.lean ====
section
/-! DEFINITION. Operations on BitSequences: concatenation, XOR, and permutation by a table of target positions. -/

namespace Sys2Proof.Machine

/-- The sequence with the listed elements, the first listed most significant (rule R5). -/
def seqOfList {n : Nat} (bits : List Bool) (h : bits.length = n) : BitSeq n := ⟨⟨bits⟩, h⟩

/-- `a ++ b` of rule R7: `a` supplies the more significant elements. -/
def seqAppend {m n : Nat} (a : BitSeq m) (b : BitSeq n) : BitSeq (m + n) :=
  seqOfList (a.toList ++ b.toList) (by simp)

/-- `a xor b` of rule R7, element by element. -/
def seqXor {n : Nat} (a b : BitSeq n) : BitSeq n :=
  seqOfList (List.zipWith Bool.xor a.toList b.toList) (by simp)

/-- The loop `out[T[i] − 1] <- s[i]` of rules R58 and R75 over the rest of the table and of the input. -/
def placeAll {n : Nat} : List Nat → List Bool → BitSeq n → BitSeq n
  | t :: ts, b :: bs, out => placeAll ts bs (out.setIfInBounds (t - 1) b)
  | _, _, out => out

/-- Permutation with target-position semantics (rules R6, R58, R75): output position `T[i] − 1` receives `s[i]`.
The sequence of zeros it starts from is overwritten whole when `T` is a permutation of 1 .. n. -/
def permuteToTarget {n : Nat} (T : Vector Nat n) (s : BitSeq n) : BitSeq n :=
  placeAll T.toList s.toList (Vector.replicate n false)

end Sys2Proof.Machine
end

