-- ==== Sys2Proof/Machine/Codec.lean ====
section
/-! DEFINITION. The BitVector codec (spec/40_bitvector_codec.md). -/

namespace Sys2Proof.Machine

/-- The loop of rule R44: `value mod 2` goes in front of what is written already, so the tail is filled first. -/
def toBitsList : Nat → Nat → List Bool → List Bool
  | 0, _, bits => bits
  | width + 1, v, bits => toBitsList width (v / 2) (decide (v % 2 = 1) :: bits)

theorem toBitsList_length (width v : Nat) (bits : List Bool) :
    (toBitsList width v bits).length = width + bits.length := by
  induction width generalizing v bits with
  | zero => simp [toBitsList]
  | succ width ih => simp [toBitsList, ih]; omega

/-- `toBits(value, width)` (rule R44), on every non-negative `value` (rule R46). -/
def toBits (value width : Nat) : BitSeq width :=
  seqOfList (toBitsList width value []) (by simp [toBitsList_length])

/-- `splitHalves` (rule R47), typed on even widths only (rule R48): `left` is the first half. -/
def splitHalves {h : Nat} (bits : BitSeq (2 * h)) : BitSeq h × BitSeq h :=
  (seqOfList (bits.toList.take h) (by simp; omega), seqOfList (bits.toList.drop h) (by simp; omega))

/-- `Σ rev[j] × 2^(i + j)` over the listed elements. -/
def weigh (i : Nat) : List Bool → Nat
  | [] => 0
  | b :: rest => b.toNat * 2 ^ i + weigh (i + 1) rest

/-- `val` (rule R50): reverse the sequence, then sum `bit[i] × 2^i` (rule R49). -/
def val {n : Nat} (s : BitSeq n) : Nat := weigh 0 s.toList.reverse

theorem weigh_lt (l : List Bool) (i : Nat) : weigh i l < 2 ^ (i + l.length) - 2 ^ i + 1 := by
  induction l generalizing i with
  | nil => simp [weigh]
  | cons b rest ih =>
    have h := ih (i + 1)
    have hp : 2 ^ (i + 1) ≤ 2 ^ (i + 1 + rest.length) := Nat.pow_le_pow_right (by omega) (by omega)
    have e : i + (b :: rest).length = i + 1 + rest.length := by simp; omega
    have hb : b.toNat * 2 ^ i ≤ 2 ^ i := by cases b <;> simp
    rw [e, weigh]
    have : 2 ^ (i + 1) = 2 ^ i + 2 ^ i := by rw [Nat.pow_succ]; omega
    omega

/-- A sequence of n elements has a value below `2^n` (rule R9). -/
theorem val_lt {n : Nat} (s : BitSeq n) : val s < 2 ^ n := by
  have h := weigh_lt s.toList.reverse 0
  have p : 0 < 2 ^ n := Nat.two_pow_pos n
  have e : 0 + s.toList.reverse.length = n := by simp
  rw [e] at h
  show weigh 0 s.toList.reverse < 2 ^ n
  omega

/-- `toInteger` (rule R49): `val` at width 8, a `U 8`. -/
def toInteger (bits : BitSeq 8) : BitVec 8 := BitVec.ofNat 8 (val bits)

end Sys2Proof.Machine
end

