-- ==== Sys2Proof/Machine/KeySchedule.lean ====
section
/-! DEFINITION. The key scheduler (spec/41_key_scheduler.md). -/

namespace Sys2Proof.Machine

/-- `KEY_PERM` (rules R4, R58): 1-based target positions. -/
def keyPerm : Vector Nat 6 := #v[5, 6, 1, 4, 2, 3]

/-- Left rotation of a key half by one position (rule R56): `[a, b, c]` becomes `[b, c, a]`. -/
def rotateHalf (a : BitSeq 3) : BitSeq 3 := #v[a[1], a[2], a[0]]

/-- Steps 1 to 3 of the key schedule (rules R55 to R57): split, rotate each half, concatenate. -/
def rotatedKey (cipherKey : Key) : BitSeq 6 :=
  let halves := splitHalves (h := 3) (toBits cipherKey.toNat 6)
  seqAppend (rotateHalf halves.1) (rotateHalf halves.2)

/-- `defineRoundKey` (rule R54): the four steps of rules R55 to R58. -/
def defineRoundKey (cipherKey : Key) : BitSeq 6 := permuteToTarget keyPerm (rotatedKey cipherKey)

end Sys2Proof.Machine
end

