-- ==== Sys2Proof/WellFormed.lean ====
section
/-! DEFINITION. Well-formedness: of a command (always: its fields are as wide as the ports, rule R37), and of a
command as a host program writes it, with integers of any size (rules R41, R43). -/

namespace Sys2Proof

/-- A command is well formed when its operands are in the documented domains (rules R37, R38).
The field widths make this true of every `Instr`. -/
def Instr.wf : Instr → Bool
  | .enc block key => decide (block.toNat < 256) && decide (key.toNat < 64)
  | .dec block key => decide (block.toNat < 256) && decide (key.toNat < 64)

/-- What a host program may name: the two commands (rule R41) and the two pseudo-instructions (rule R42). -/
inductive SourceOp where
  | enc
  | dec
  | enc3
  | dec3
  deriving DecidableEq, Repr

/-- A command as the host writes it: operands are integers without a bound (rule R43). -/
structure SourceCommand where
  op    : SourceOp
  block : Nat
  key   : Nat
  deriving DecidableEq, Repr

/-- The block literal is in 0 .. 255 (rule R41). -/
def SourceCommand.blockFits (c : SourceCommand) : Bool := decide (c.block < 256)

/-- The key literal is in 0 .. 63 (rule R41). -/
def SourceCommand.keyFits (c : SourceCommand) : Bool := decide (c.key < 64)

/-- Both literals are in range. -/
def SourceCommand.wf (c : SourceCommand) : Bool := c.blockFits && c.keyFits

end Sys2Proof
end

