-- ==== Sys2Proof/Decode.lean ====
section
/-! DEFINITION. The command word: its fields, the decoder (total on all 32768 words, refusing only what is no
`CMD15` word) and the encoder. -/

namespace Sys2Proof

/-- `op = CMD15[14:14]` (rule R35). -/
def opField (w : CmdWord) : BitVec 1 := w.extractLsb' 14 1

/-- `key = CMD15[13:8]` (rules R35, R37). -/
def keyField (w : CmdWord) : Key := w.extractLsb' 8 6

/-- `block = CMD15[7:0]` (rules R35, R37). -/
def blockField (w : CmdWord) : Block := w.extractLsb' 0 8

/-- The command selected by the three ports `cmd_op`, `cmd_key`, `cmd_block` (rules R28, R36): 0 is ENC, 1 is DEC. -/
def decodeFields (op : BitVec 1) (key : Key) (block : Block) : Instr :=
  if op = 0#1 then .enc block key else .dec block key

/-- The decoder on a command word: it never refuses (rule R38). -/
def decodeWord (w : CmdWord) : Instr := decodeFields (opField w) (keyField w) (blockField w)

/-- Why a number is refused as a command word. -/
inductive DecodeError where
  /-- The number has a bit above bit 14: it is no `CMD15` word (rules R34, R43). Safe: it refuses more. -/
  | widerThanCmd15
  deriving DecidableEq, Repr

/-- The decoder on a number of any size: what does not fit in 15 bits is refused by name, as rule R43 lets a
driver do before the value reaches the engine. -/
def decodeNat (w : Nat) : Except DecodeError Instr :=
  if w < 2 ^ 15 then .ok (decodeWord (BitVec.ofNat 15 w)) else .error .widerThanCmd15

/-- The command whose bits are `w`, numbered as spec/opcode_table.json numbers them, of which the lowest `nbits`
are given and the rest are 0. -/
def decodeTableWord (nbits w : Nat) : Option Instr :=
  match decodeNat (w % 2 ^ nbits) with
  | .ok i => some i
  | .error _ => none

/-- The operation field of a command (rule R36). -/
def opOf : Instr → BitVec 1
  | .enc _ _ => 0#1
  | .dec _ _ => 1#1

/-- The key field of a command. -/
def keyOf : Instr → Key
  | .enc _ key => key
  | .dec _ key => key

/-- The block field of a command. -/
def blockOf : Instr → Block
  | .enc block _ => block
  | .dec block _ => block

/-- The three fields side by side, operation first (rule R35): `CMD15 = op × 2^14 + key × 2^8 + block`. -/
def joinFields (op : BitVec 1) (key : Key) (block : Block) : CmdWord := op ++ key ++ block

/-- The encoder (rules R35, R36). -/
def encode (i : Instr) : CmdWord := joinFields (opOf i) (keyOf i) (blockOf i)

end Sys2Proof
end

