-- ==== Sys2Proof/Machine/Operands.lean ====
section
/-! DEFINITION. The operands of a command: integer slices, the one operand form (rule R37), the halves of a block,
and the command the ports present. -/

namespace Sys2Proof.Machine

/-- `v[hi:lo]` of rule R6, a slice of an integer. -/
def slice (v hi lo : Nat) : Nat := v / 2 ^ lo % 2 ^ (hi - lo + 1)

/-- The two halves of a block, most significant first (rules R47, R52). -/
def blockHalves (block : Block) : BitSeq 4 × BitSeq 4 := splitHalves (h := 4) (toBits block.toNat 8)

/-- Two halves put together and made an integer (rule R49). -/
def joinHalves (first second : BitSeq 4) : Block := toInteger (seqAppend first second)

/-- The command word on the ports: the three ports side by side (rule R35). -/
def portsWord (p : Ports) : CmdWord := joinFields p.cmdOp p.cmdKey p.cmdBlock

/-- The command the ports present (rules R26, R28, R36). -/
def portsCommand (p : Ports) : Instr := decodeWord (portsWord p)

/-- The ports with a command word presented and no reset request (rule R28). -/
def presenting (w : CmdWord) : Ports where
  rst      := false
  cmdValid := true
  cmdOp    := opField w
  cmdKey   := keyField w
  cmdBlock := blockField w

/-- The ports with nothing presented and no reset request. -/
def idlePorts : Ports where
  rst      := false
  cmdValid := false
  cmdOp    := 0
  cmdKey   := 0
  cmdBlock := 0

/-- The ports for a number of any size (rule R43): what is no command word is refused before it reaches the engine,
so nothing is presented (DESIGN CHOICE, log entry 8). -/
def presentingNat (w : Nat) : Ports :=
  if w < 2 ^ 15 then presenting (BitVec.ofNat 15 w) else idlePorts

end Sys2Proof.Machine
end

