-- ==== Sys2Proof/Machine/Permutation.lean ====
section
/-! DEFINITION. The permutation stage (spec/44_permutation.md). -/

namespace Sys2Proof.Machine

/-- `PBOX` (rules R4, R75): 1-based target positions. -/
def pBox : Vector Nat 4 := #v[3, 4, 1, 2]

/-- `pBoxPermutation` (rule R75). -/
def pBoxPermutation (sbox : BitSeq 4) : BitSeq 4 := permuteToTarget pBox sbox

end Sys2Proof.Machine
end

