-- ==== Sys2Proof/Machine/Substitution.lean ====
section
/-! DEFINITION. The substitution stage (spec/43_substitution.md). -/

namespace Sys2Proof.Machine

/-- The substitution table `SBOX[row][col]` (rule R67). -/
def SBOX : Vector (Vector Nat 16) 4 := #v[
  #v[14, 4, 13, 1, 2, 15, 11, 8, 3, 10, 6, 12, 5, 9, 0, 7],
  #v[0, 15, 7, 4, 14, 2, 13, 1, 10, 6, 12, 11, 9, 5, 3, 8],
  #v[4, 1, 14, 8, 13, 6, 2, 11, 15, 12, 9, 7, 3, 10, 5, 0],
  #v[15, 12, 8, 2, 4, 9, 1, 7, 5, 11, 3, 14, 10, 0, 6, 13]]

/-- The row index, from the two outer elements (rule R68). -/
def sBoxRow (xored : BitSeq 6) : Fin 4 := ⟨val #v[xored[0], xored[5]], val_lt _⟩

/-- The column index, from the four inner elements (rule R69). -/
def sBoxCol (xored : BitSeq 6) : Fin 16 := ⟨val #v[xored[1], xored[2], xored[3], xored[4]], val_lt _⟩

/-- The looked-up integer (rule R70); row and column are in range by their types (rule R72). -/
def sBoxEntry (xored : BitSeq 6) : Nat := SBOX[sBoxRow xored][sBoxCol xored]

/-- `sBoxSubstitution` (rules R70, R71). -/
def sBoxSubstitution (xored : BitSeq 6) : BitSeq 4 := toBits (sBoxEntry xored) 4

end Sys2Proof.Machine
end

