-- ==== Sys2Proof/Machine/Round.lean ====
section
/-! DEFINITION. The Feistel round and the document's two operations (spec/45_feistel_round.md sections 1 and 2). -/

namespace Sys2Proof.Machine

/-- Key mixing (rule R79). -/
def mixKey (expanded roundKey : BitSeq 6) : BitSeq 6 := seqXor expanded roundKey

/-- Half mixing, the Feistel combiner (rule R80). -/
def mixHalf (perm left : BitSeq 4) : BitSeq 4 := seqXor perm left

/-- The round function `F` (rule R81). -/
def roundF (r : BitSeq 4) (rk : BitSeq 6) : BitSeq 4 :=
  let expanded := expansionBox r
  let xored := mixKey expanded rk
  let sub := sBoxSubstitution xored
  pBoxPermutation sub

/-- One Feistel round on two halves (rule R82): `(finalLeft, finalRight)`. -/
def feistelRound (a b : BitSeq 4) (rk : BitSeq 6) : BitSeq 4 × BitSeq 4 := (b, mixHalf (roundF b rk) a)

/-- `encrypt` (rule R83): the halves as they are, recombined as `finalLeft ++ finalRight`. -/
def encrypt (plaintext : Block) (key : Key) : Block :=
  let halves := blockHalves plaintext
  let out := feistelRound halves.1 halves.2 (defineRoundKey key)
  joinHalves out.1 out.2

/-- `decrypt` (rule R84): the halves exchanged, recombined as `finalRight ++ finalLeft`. -/
def decrypt (ciphertext : Block) (key : Key) : Block :=
  let halves := blockHalves ciphertext
  let out := feistelRound halves.2 halves.1 (defineRoundKey key)
  joinHalves out.2 out.1

/-- `swap` (rule R85): the two halves of a block exchanged. -/
def swapHalves (b : Block) : Block := BitVec.ofNat 8 (16 * slice b.toNat 3 0 + slice b.toNat 7 4)

end Sys2Proof.Machine
end

