-- ==== Sys2Proof/Machine/Commands.lean ====
section
/-! DEFINITION. The meanings of the two commands (spec/45_feistel_round.md section 3). -/

namespace Sys2Proof.Machine

/-- `ENC block, key` (rule R86). -/
def execEnc (block : Block) (key : Key) (s : State) : Host.Outcome State Fault Refusal :=
  .next (complete (encrypt block key) s)

/-- `DEC block, key` (rule R87). -/
def execDec (block : Block) (key : Key) (s : State) : Host.Outcome State Fault Refusal :=
  .next (complete (decrypt block key) s)

end Sys2Proof.Machine
end

