-- ==== Sys2Proof/Machine/Dispatch.lean ====
section
/-! DEFINITION. One arm per command. -/

namespace Sys2Proof.Machine

def exec (i : Instr) (s : State) : Host.Outcome State Fault Refusal :=
  match i with
  | .enc block key => Sys2Proof.Machine.execEnc block key s
  | .dec block key => Sys2Proof.Machine.execDec block key s

end Sys2Proof.Machine
end

