-- ==== Sys2Proof/Machine/Events.lean ====
section
/-! DEFINITION. What one event at the engine's boundary does, and how a command word is put before the engine. -/

namespace Sys2Proof.Machine

/-- The command in progress completes (rules R12, R120), with the effect of its own meaning; with none in progress
the engine holds its registers (rule R106). -/
def finishInFlight (s : State) : Host.Outcome State Fault Refusal :=
  match s.inFlight with
  | some i => exec i s
  | none => .next s

/-- The ports `p` at an instant, the first event of `s`, with `rest` the events after it. Reset wins over everything
(rules R103, R108, R110). A presented command is accepted when `cmd_ready = 1` (rules R28, R29); `whole` says whether
it also completes within the step (rule R12). While `cmd_ready = 0` the host keeps its command presented (rule R114):
the event stays first, and the command in progress completes. With nothing presented nothing changes. -/
def onPorts (whole : Bool) (p : Ports) (rest : List Event) (s : State) : Host.Outcome State Fault Refusal :=
  if p.rst then .next (applyReset (setAgenda rest s))
  else if p.cmdValid then
    if cmdReady s then
      if whole then exec (portsCommand p) (setAgenda rest s)
      else .next (accept (portsCommand p) (setAgenda rest s))
    else finishInFlight s
  else .next (setAgenda rest s)

/-- The next event of the agenda. With no event left the host does nothing more, and a command in progress completes:
every accepted command does (rule R120). -/
def nextEvent (s : State) : Host.Outcome State Fault Refusal :=
  match s.agenda with
  | [] => finishInFlight s
  | .instant p :: rest => onPorts true p rest s
  | .acceptance p :: rest => onPorts false p rest s
  | .completion :: rest => finishInFlight (setAgenda rest s)
  | .useDout :: rest => hostUseDout (setAgenda rest s)

/-- The state with the ports `p` at the next instant, at an engine that is ready to accept what they present. A command
in progress is dropped, whatever `p` presents (DESIGN CHOICE, log entry 4). -/
def presentNext (p : Ports) (s : State) : State := setInFlight none (setAgenda (.instant p :: s.agenda) s)

/-- The state with the command of a table word presented next (numbered as in spec/opcode_table.json). For a number
that is no command word nothing is presented, and a command in progress is dropped all the same, so that it never
completes: of the refusal that rule R43 allows, the spec does not say how it leaves an engine that is busy (DESIGN
CHOICE, log entry 8). -/
def presentTableWord (s : State) (nbits w : Nat) : State := presentNext (presentingNat (w % 2 ^ nbits)) s

end Sys2Proof.Machine
end

