-- ==== Sys2Proof/Machine/Cascade.lean ====
section
/-! DEFINITION. The cascaded (triple) application (spec/46_cascade.md): the two functions, and the host's sequence of
commands that the pseudo-instructions ENC3 and DEC3 stand for (rule R42). Nothing of it is in the engine (rule R97). -/

namespace Sys2Proof.Machine

/-- `encrypt3` (rule R93). -/
def encrypt3 (b : Block) (k : Key) : Block := encrypt (encrypt (encrypt b k) k) k

/-- `decrypt3` (rule R94). -/
def decrypt3 (c : Block) (k : Key) : Block := decrypt (decrypt (decrypt c k) k) k

/-- The host presents one command and waits for `DONE = 1`. -/
def hostRun (i : Instr) (s : State) : Host.Outcome State Fault Refusal :=
  step (presentNext (presenting (encode i)) s)

/-- The host takes `DOUT` after `DONE = 1` and goes on with it (rule R117). -/
def withResult (go : BitVec 8 → State → Host.Outcome State Fault Refusal)
    (o : Host.Outcome State Fault Refusal) : Host.Outcome State Fault Refusal :=
  match o with
  | .next s =>
    match rspData s with
    | some t => go t s
    | none => .refused .doutNotValid
  | .fault f => .fault f
  | .refused r => .refused r

/-- `ENC3 block, key` (rules R42, R93): three ENC commands, each block the `DOUT` before it, one key (rule R95). -/
def hostEnc3 (block : Block) (key : Key) (s : State) : Host.Outcome State Fault Refusal :=
  withResult (fun t2 => hostRun (.enc t2 key)) (withResult (fun t1 => hostRun (.enc t1 key)) (hostRun (.enc block key) s))

/-- `DEC3 block, key` (rules R42, R94): three DEC commands. -/
def hostDec3 (block : Block) (key : Key) (s : State) : Host.Outcome State Fault Refusal :=
  withResult (fun t2 => hostRun (.dec t2 key)) (withResult (fun t1 => hostRun (.dec t1 key)) (hostRun (.dec block key) s))

end Sys2Proof.Machine
end

