-- ==== Sys2Proof/Machine/Assembler.lean ====
section
/-! DEFINITION. The textual syntax of commands (rules R41 to R43): from the characters of one line to a command with
literals of any size, and from there to the engine, refusing or truncating what is out of range. -/

namespace Sys2Proof.Machine

/-- Why the assembler refuses a line; none of these is a fault of the engine (rule R43). All are safe. -/
inductive AsmError where
  /-- The first word is none of ENC, DEC, ENC3, DEC3. -/
  | unknownMnemonic
  /-- The operands are not two, separated by one comma. -/
  | badOperands
  /-- An operand is no integer literal. -/
  | badLiteral
  /-- The block literal is above 255. -/
  | blockOutOfRange
  /-- The key literal is above 63. -/
  | keyOutOfRange
  deriving DecidableEq, Repr

/-- The six digits of a hexadecimal literal above 9 (rule R41), each as a capital, as the spec writes it in `0xBF`, and
as a small letter (DESIGN CHOICE, log entry 6); the first stands for 10. -/
def hexLetters : List (Char × Char) := [('A', 'a'), ('B', 'b'), ('C', 'c'), ('D', 'd'), ('E', 'e'), ('F', 'f')]

/-- The value of one digit (rule R41): a decimal digit counts from the code of `0`, 48; a letter from 10. -/
def digitValue (c : Char) : Option Nat :=
  match c.isDigit with
  | true => some (c.toNat - 48)
  | false => (hexLetters.findIdx? fun letter => letter.1 == c || letter.2 == c).map (10 + ·)

/-- Digits of a base, most significant first, after the value read so far. -/
def digitsValue (base : Nat) : Nat → List Char → Option Nat
  | v, [] => some v
  | v, c :: cs =>
    match digitValue c with
    | some d => if d < base then digitsValue base (base * v + d) cs else none
    | none => none

/-- At least one digit. -/
def numberValue (base : Nat) : List Char → Option Nat
  | [] => none
  | c :: cs => digitsValue base 0 (c :: cs)

/-- An integer literal: decimal, hexadecimal with `0x`, or binary with `0b` (rule R41). -/
def literalValue : List Char → Option Nat
  | '0' :: 'x' :: ds => numberValue 16 ds
  | '0' :: 'b' :: ds => numberValue 2 ds
  | ds => numberValue 10 ds

/-- The characters without the blanks at both ends. -/
def trimBlanks (cs : List Char) : List Char :=
  ((cs.dropWhile (· = ' ')).reverse.dropWhile (· = ' ')).reverse

/-- The mnemonic of a line. -/
def sourceOp (cs : List Char) : Option SourceOp :=
  if cs = ['E', 'N', 'C'] then some .enc
  else if cs = ['D', 'E', 'C'] then some .dec
  else if cs = ['E', 'N', 'C', '3'] then some .enc3
  else if cs = ['D', 'E', 'C', '3'] then some .dec3
  else none

/-- The two operands, after the mnemonic. -/
def sourceOperands (op : SourceOp) (cs : List Char) : Except AsmError SourceCommand :=
  match cs.dropWhile (· ≠ ',') with
  | [] => .error .badOperands
  | _ :: key =>
    if ',' ∈ key then .error .badOperands
    else
      match literalValue (trimBlanks (cs.takeWhile (· ≠ ','))), literalValue (trimBlanks key) with
      | some b, some k => .ok { op := op, block := b, key := k }
      | _, _ => .error .badLiteral

/-- One line (rule R41): what follows a `;` is a comment; an empty line holds no command. -/
def parseLine (line : List Char) : Except AsmError (Option SourceCommand) :=
  let code := trimBlanks (line.takeWhile (· ≠ ';'))
  match code with
  | [] => .ok none
  | _ :: _ =>
    match sourceOp (code.takeWhile (· ≠ ' ')) with
    | none => .error .unknownMnemonic
    | some op =>
      match sourceOperands op (code.dropWhile (· ≠ ' ')) with
      | .ok c => .ok (some c)
      | .error e => .error e

/-- The range check of the assembler (rule R41): a literal outside its range is an error of the assembler. -/
def checkRange (c : SourceCommand) : Except AsmError SourceCommand :=
  if !c.blockFits then .error .blockOutOfRange
  else if !c.keyFits then .error .keyOutOfRange
  else .ok c

/-- The field values of a driver that truncates as the reference did (rule R43): `block mod 256` and `key mod 64`. -/
def truncateBlock (block : Nat) : Block := BitVec.ofNat 8 block

/-- See `truncateBlock`. -/
def truncateKey (key : Nat) : Key := BitVec.ofNat 6 key

/-- The word a command assembles to (rule R41); a pseudo-instruction has no word of its own (rule R42). It is total on
literals of any size: of the two ways rule R43 leaves a model for a literal wider than its field, truncating and
refusing, it truncates (DESIGN CHOICE, log entry 12). The assembler's error of rule R41 is `checkRange`, which it does
not call. -/
def sourceWord (c : SourceCommand) : Option CmdWord :=
  match c.op with
  | .enc => some (encode (.enc (truncateBlock c.block) (truncateKey c.key)))
  | .dec => some (encode (.dec (truncateBlock c.block) (truncateKey c.key)))
  | .enc3 => none
  | .dec3 => none

/-- The host runs a source command (rules R42, R93, R94), its operands truncated, one of the two ways rule R43 leaves
open (DESIGN CHOICE, log entry 12). -/
def hostRunSource (c : SourceCommand) (s : State) : Host.Outcome State Fault Refusal :=
  match c.op with
  | .enc => hostRun (.enc (truncateBlock c.block) (truncateKey c.key)) s
  | .dec => hostRun (.dec (truncateBlock c.block) (truncateKey c.key)) s
  | .enc3 => hostEnc3 (truncateBlock c.block) (truncateKey c.key) s
  | .dec3 => hostDec3 (truncateBlock c.block) (truncateKey c.key) s

end Sys2Proof.Machine
end

