-- ==== Sys2Proof/Machine/IntegerForm.lean ====
section
/-! DEFINITION. The integer forms the spec gives beside the BitSequence ones: rules R60, R64, R73, R78 and R92.
No meaning of a command uses them; statements say that the two forms agree. -/

namespace Sys2Proof.Machine

/-- `RK(k)` (rule R60). -/
def intRoundKey (K : Key) : BitVec 6 :=
  BitVec.ofNat 6 (32 * slice K.toNat 5 5 + 16 * slice K.toNat 0 0 + 8 * slice K.toNat 2 2 + 4 * slice K.toNat 1 1
    + 2 * slice K.toNat 4 4 + 1 * slice K.toNat 3 3)

/-- `E6[h]`, the sixteen values of rule R64. -/
def E6 : Vector (BitVec 6) 16 := #v[0, 34, 4, 38, 8, 42, 12, 46, 17, 51, 21, 55, 25, 59, 29, 63]

/-- `S6[x]`, the sixty-four values of rule R73, sixteen a line. -/
def S6 : Vector (BitVec 4) 64 := #v[
  14, 0, 4, 15, 13, 7, 1, 4, 2, 14, 15, 2, 11, 13, 8, 1,
  3, 10, 10, 6, 6, 12, 12, 11, 5, 9, 9, 5, 0, 3, 7, 8,
  4, 15, 1, 12, 14, 8, 8, 2, 13, 4, 6, 9, 2, 1, 11, 7,
  15, 5, 12, 11, 9, 3, 7, 14, 3, 10, 10, 0, 5, 6, 0, 13]

/-- `P4[s]`, the sixteen values of rule R78. -/
def P4 : Vector (BitVec 4) 16 := #v[0, 4, 8, 12, 1, 5, 9, 13, 2, 6, 10, 14, 3, 7, 11, 15]

/-- `Fi(r, rk) = P4[S6[E6[r] XOR rk]]` (rule R92). -/
def intF (r : BitVec 4) (rk : BitVec 6) : BitVec 4 := P4[S6[(E6[r.toFin] ^^^ rk).toFin].toFin]

/-- The left half `b[7:4]` of a block (rule R52). -/
def intLeft (b : Block) : BitVec 4 := BitVec.ofNat 4 (slice b.toNat 7 4)

/-- The right half `b[3:0]` of a block (rule R52). -/
def intRight (b : Block) : BitVec 4 := BitVec.ofNat 4 (slice b.toNat 3 0)

/-- `encrypt` on integers (rule R92). -/
def intEncrypt (p : Block) (k : Key) : Block :=
  BitVec.ofNat 8 (16 * (intRight p).toNat + (intF (intRight p) (intRoundKey k) ^^^ intLeft p).toNat)

/-- `decrypt` on integers (rule R92). -/
def intDecrypt (c : Block) (k : Key) : Block :=
  BitVec.ofNat 8 (16 * (intF (intLeft c) (intRoundKey k) ^^^ intRight c).toNat + (intLeft c).toNat)

end Sys2Proof.Machine
end

