-- ==== Sys2Proof/Safety.lean ====
section
/-! DEFINITION. What counts as a safe run, in the terms the claims use: the registers say what rule R12 lets them say,
and the host keeps its duty of rule R115. -/

namespace Sys2Proof

/-- The registers and the latch of the command in progress agree (rules R12, R21, R29): while `DONE = 1` nothing is in
progress, and while `DONE = 0` the bits of `DOUT` are unspecified, one of the free values used so far. -/
def RegistersAgree (s : Machine.State) : Prop :=
  (s.done = true → s.inFlight = none) ∧
  (s.done = false → ∃ k, k < s.freeIx ∧ s.dout = Config.unspecifiedDout k)

/-- The host's duty of rule R115 over a list of events, from an engine with the given `DONE` and with or without a
command in progress: `DOUT` is used only while `DONE = 1`. -/
def hostDutiful (done busy : Bool) : List Machine.Event → Bool
  | [] => true
  | .instant p :: rest =>
    if p.rst then hostDutiful false false rest
    else if p.cmdValid then hostDutiful true false rest
    else hostDutiful done busy rest
  | .acceptance p :: rest =>
    if p.rst then hostDutiful false false rest
    else if p.cmdValid then hostDutiful false true rest
    else hostDutiful done busy rest
  | .completion :: rest => hostDutiful (done || busy) false rest
  | .useDout :: rest => done && hostDutiful done busy rest

/-- The result of a command, what its completion leaves in `DOUT` (rules R86, R87). -/
def resultOf : Instr → Block
  | .enc block key => Machine.encrypt block key
  | .dec block key => Machine.decrypt block key

/-- The event in which the host presents a command that runs as one step. -/
def presents (i : Instr) : Machine.Event := .instant (Machine.presenting (encode i))

/-- The event in which the host presents a command that is only accepted. -/
def presentsOpen (i : Instr) : Machine.Event := .acceptance (Machine.presenting (encode i))

/-- The events to come keep the host's duty. -/
def Dutiful (s : Machine.State) : Prop := hostDutiful s.done s.inFlight.isSome s.agenda = true

/-- The event is one in which reset is raised. -/
def eventResets : Machine.Event → Bool
  | .instant p => p.rst
  | .acceptance p => p.rst
  | .completion => false
  | .useDout => false

end Sys2Proof
end

