-- ==== Sys2Proof/Certificates/Slice0/Obligations.lean ====
section
/-! DEFINITION. The statements for the provers, rule by rule of spec/. -/

open Sys2Proof Sys2Proof.Machine

/-! ### Command words (spec/30_encoding.md) -/

/-- Words written out in spec/95_test_vectors.md section 3.11 decode to the commands they stand for. -/
def Obligations.SpecWordsDecode : Prop :=
  decodeTableWord 16 0x2BBF = some (.enc 0xBF 43) ∧ decodeTableWord 16 0x6BF4 = some (.dec 0xF4 43) ∧
  decodeTableWord 16 0x0000 = some (.enc 0x00 0) ∧ decodeTableWord 16 0x4000 = some (.dec 0x00 0) ∧
  decodeTableWord 16 0x3FFF = some (.enc 0xFF 63) ∧ decodeTableWord 16 0x7FFF = some (.dec 0xFF 63) ∧
  decodeTableWord 16 0x155A = some (.enc 0x5A 21) ∧ decodeTableWord 16 0x6080 = some (.dec 0x80 32) ∧
  decodeTableWord 16 0x0101 = some (.enc 0x01 1)

/-- Decoding an encoded command gives the command back, as a word and as a table word (rules R35 to R37). -/
def Obligations.DecodeOfEncodedCommand : Prop :=
  ∀ i : Instr, decodeWord (encode i) = i ∧ decodeTableWord 16 (encode i).toNat = some i

/-- Each word has one meaning: encoding the decoded word gives the word back (rule R38). -/
def Obligations.EncodeOfDecodedWord : Prop :=
  ∀ w : CmdWord, encode (decodeWord w) = w

/-- All 32768 words are commands, 16384 of them ENC and 16384 DEC (rule R38). That a number of 32768 or more is
refused as a command word is the model's choice (log entry 8); rule R43 would allow truncation too. -/
def Obligations.EveryWordIsEncOrDec : Prop :=
  (∀ w : Nat, (∃ i, decodeNat w = .ok i) ↔ w < 32768) ∧
  ((Finset.range 32768).filter (fun w => ∃ b k, decodeTableWord 16 w = some (.enc b k))).card = 16384 ∧
  ((Finset.range 32768).filter (fun w => ∃ b k, decodeTableWord 16 w = some (.dec b k))).card = 16384

/-- Rule R36: the match and mask of the two entries of the opcode map. -/
def Obligations.OpcodeMapByMask : Prop :=
  ∀ w : CmdWord,
    (w &&& 0x4000#15 = 0x0000#15 ↔ decodeWord w = .enc (blockField w) (keyField w)) ∧
    (w &&& 0x4000#15 = 0x4000#15 ↔ decodeWord w = .dec (blockField w) (keyField w))

/-- Rule R35: the number of a command word, its fields, and the elements and halves the fields supply. -/
def Obligations.CommandWordFields : Prop :=
  (∀ b k, (encode (.enc b k)).toNat = 0 * 2 ^ 14 + k.toNat * 2 ^ 8 + b.toNat) ∧
  (∀ b k, (encode (.dec b k)).toNat = 1 * 2 ^ 14 + k.toNat * 2 ^ 8 + b.toNat) ∧
  (∀ p : Ports,
    (portsWord p).toNat = p.cmdOp.toNat * 2 ^ 14 + p.cmdKey.toNat * 2 ^ 8 + p.cmdBlock.toNat ∧
    p.cmdOp.toNat = slice (portsWord p).toNat 14 14 ∧ p.cmdKey.toNat = slice (portsWord p).toNat 13 8 ∧
    p.cmdBlock.toNat = slice (portsWord p).toNat 7 0) ∧
  (∀ w : CmdWord,
    (toBits (keyField w).toNat 6)[0] = w.getLsbD 13 ∧ (toBits (blockField w).toNat 8)[0] = w.getLsbD 7 ∧
    val (blockHalves (blockField w)).1 = slice w.toNat 7 4 ∧ val (blockHalves (blockField w)).2 = slice w.toNat 3 0)

/-! ### The codec (spec/40_bitvector_codec.md) -/

/-- Rule R45: the closed form of `toBits`, for any value and for a value that fits. -/
def Obligations.ToBitsClosedForm : Prop :=
  (∀ (value width : Nat) (j : Fin width),
    (toBits value width)[j] = decide (value / 2 ^ (width - 1 - j) % 2 = 1)) ∧
  (∀ (n : Nat) (v : BitVec n) (j : Fin n),
    (toBits v.toNat n)[j] = decide (slice v.toNat (n - 1 - j) (n - 1 - j) = 1) ∧
    (toBits v.toNat n)[j] = v.getLsbD (n - 1 - j))

/-- Rule R46: an out-of-range value is truncated; inside the engine every value fits. -/
def Obligations.ToBitsTruncates : Prop :=
  (∀ value width : Nat, toBits value width = toBits (value % 2 ^ width) width) ∧
  (∀ xored : BitSeq 6, sBoxEntry xored ≤ 15) ∧
  toBits 0x1BF 8 = toBits 0xBF 8

/-- Rule R51: `toBits` and `val` are inverse bijections between `U n` and `BitSeq n`. -/
def Obligations.CodecRoundTrip : Prop :=
  (∀ (n : Nat) (v : Fin (2 ^ n)), val (toBits v n) = v) ∧
  (∀ (n : Nat) (s : BitSeq n), toBits (val s) n = s) ∧
  (∀ b : Block, toInteger (toBits b.toNat 8) = b) ∧
  (∀ n : Nat, Function.Bijective (fun v : Fin (2 ^ n) => toBits v n)) ∧
  (∀ n : Nat, Function.Bijective (fun s : BitSeq n => (⟨val s, val_lt s⟩ : Fin (2 ^ n))))

/-- Rule R47: the halves of a sequence of even width. -/
def Obligations.SplitHalvesParts : Prop :=
  (∀ (h : Nat) (bits : BitSeq (2 * h)),
    (splitHalves bits).1.toList ++ (splitHalves bits).2.toList = bits.toList ∧
    (∀ i : Fin h, (splitHalves bits).1.toList[i.val]? = bits.toList[i.val]? ∧
      (splitHalves bits).2.toList[i.val]? = bits.toList[h + i.val]?)) ∧
  splitHalves (h := 4) #v[true, false, true, true, true, true, true, true] =
    (#v[true, false, true, true], #v[true, true, true, true]) ∧
  splitHalves (h := 3) #v[true, false, true, false, true, true] = (#v[true, false, true], #v[false, true, true])

/-- Rules R49 and R50: `val` as a weighted sum at every width; `toInteger` is `val` at 8, below 256. -/
def Obligations.ValIsWeightedSum : Prop :=
  (∀ (n : Nat) (s : BitSeq n), val s = ∑ i : Fin n, (s[n - 1 - i.val]'(by omega)).toNat * 2 ^ i.val) ∧
  (∀ s : BitSeq 8, (toInteger s).toNat = val s ∧ val s ≤ 255) ∧
  toInteger (Vector.replicate 8 false) = 0 ∧ toInteger (Vector.replicate 8 true) = 255 ∧
  toInteger #v[true, true, true, true, false, true, false, false] = 0xF4 ∧
  val #v[true, false] = 2 ∧ val #v[false, true, false, true] = 5 ∧
  val #v[true, true, false, true, false, true] = 53

/-- Rule R52: halves of blocks and of keys on integers and on the ports. -/
def Obligations.HalvesOnIntegers : Prop :=
  (∀ b : Block, val (blockHalves b).1 = slice b.toNat 7 4 ∧ val (blockHalves b).2 = slice b.toNat 3 0) ∧
  (∀ x y : BitSeq 4, (joinHalves x y).toNat = 16 * val x + val y ∧
    slice (joinHalves x y).toNat 7 4 = val x ∧ slice (joinHalves x y).toNat 3 0 = val y) ∧
  (∀ k : Key, val (splitHalves (h := 3) (toBits k.toNat 6)).1 = slice k.toNat 5 3 ∧
    val (splitHalves (h := 3) (toBits k.toNat 6)).2 = slice k.toNat 2 0)

/-! ### The key scheduler (spec/41_key_scheduler.md) -/

/-- Rule R59: the round key as a reordering of the key bits. -/
def Obligations.RoundKeySequenceForm : Prop :=
  ∀ cipherKey : Key,
    let k := toBits cipherKey.toNat 6
    defineRoundKey cipherKey = #v[k[0], k[5], k[3], k[4], k[1], k[2]]

/-- Rule R60: the round key on integers, bit by bit, as a sum, and for the single-bit keys. -/
def Obligations.RoundKeyIntegerForm : Prop :=
  (∀ K : Key,
    let RK := val (defineRoundKey K)
    slice RK 5 5 = slice K.toNat 5 5 ∧ slice RK 4 4 = slice K.toNat 0 0 ∧ slice RK 3 3 = slice K.toNat 2 2 ∧
    slice RK 2 2 = slice K.toNat 1 1 ∧ slice RK 1 1 = slice K.toNat 4 4 ∧ slice RK 0 0 = slice K.toNat 3 3 ∧
    RK = 32 * slice K.toNat 5 5 + 16 * slice K.toNat 0 0 + 8 * slice K.toNat 2 2 + 4 * slice K.toNat 1 1
      + 2 * slice K.toNat 4 4 + slice K.toNat 3 3) ∧
  val (defineRoundKey 1) = 16 ∧ val (defineRoundKey 2) = 4 ∧ val (defineRoundKey 4) = 8 ∧
  val (defineRoundKey 8) = 1 ∧ val (defineRoundKey 16) = 2 ∧ val (defineRoundKey 32) = 32

/-- Rule R61: the key schedule is a bijection, and two wrong readings of it differ from it at the scenario's key. -/
def Obligations.RoundKeyBijection : Prop :=
  Function.Bijective defineRoundKey ∧
  defineRoundKey 0 = #v[false, false, false, false, false, false] ∧
  defineRoundKey 63 = #v[true, true, true, true, true, true] ∧
  defineRoundKey 0b101011 = #v[true, true, false, true, false, true] ∧
  (let combined := rotatedKey 0b101011
   val (n := 6) #v[combined[4], combined[5], combined[0], combined[3], combined[1], combined[2]] = 39) ∧
  (let k := toBits 0b101011 6
   val (permuteToTarget keyPerm #v[k[2], k[0], k[1], k[5], k[3], k[4]]) = 15)

/-! ### Expansion, substitution, permutation (spec/42, 43 and 44) -/

/-- Rule R64: the expansion on integers, as slices, as arithmetic, and as the listed sixteen values. -/
def Obligations.ExpansionIntegerForm : Prop :=
  (∀ half : BitSeq 4,
    let h := val half
    let e := val (expansionBox half)
    slice e 5 5 = slice h 0 0 ∧ slice e 4 1 = slice h 3 0 ∧ slice e 0 0 = slice h 3 3 ∧
    e = 32 * (h % 2) + 2 * h + h / 8) ∧
  (List.range 16).map (fun h => val (expansionBox (toBits h 4))) =
    [0, 34, 4, 38, 8, 42, 12, 46, 17, 51, 21, 55, 25, 59, 29, 63]

/-- Rule R65: which six-bit sequences are expansions, how many, and what becomes of them in the substitution. -/
def Obligations.ExpansionOutputs : Prop :=
  Function.Injective expansionBox ∧
  ((Finset.range 16).image (fun h => val (expansionBox (toBits h 4)))).card = 16 ∧
  (∀ out : BitSeq 6, (∃ half, expansionBox half = out) ↔ out[0] = out[4] ∧ out[5] = out[1]) ∧
  (∀ half : BitSeq 4, half = #v[(expansionBox half)[1], (expansionBox half)[2], (expansionBox half)[3], (expansionBox half)[4]] ∧
    (expansionBox half)[0] = half[3] ∧ (expansionBox half)[4] = half[3] ∧
    (expansionBox half)[1] = half[0] ∧ (expansionBox half)[5] = half[0]) ∧
  (∀ (half : BitSeq 4) (rk : BitSeq 6),
    let out := expansionBox half
    (sBoxRow (mixKey out rk)).val = 2 * (out[0] ^^ rk[0]).toNat + (out[5] ^^ rk[5]).toNat ∧
    (sBoxCol (mixKey out rk)).val = 8 * (out[1] ^^ rk[1]).toNat + 4 * (out[2] ^^ rk[2]).toNat
      + 2 * (out[3] ^^ rk[3]).toNat + (out[4] ^^ rk[4]).toNat)

/-- Rule R73: the flattened table, its row and column, its values, and which row an input walks. -/
def Obligations.SubstitutionFlattened : Prop :=
  (∀ x : BitVec 6,
    let s := toBits x.toNat 6
    (sBoxRow s).val = 2 * slice x.toNat 5 5 + slice x.toNat 0 0 ∧ (sBoxCol s).val = slice x.toNat 4 1 ∧
    val (sBoxSubstitution s) = SBOX[sBoxRow s][sBoxCol s] ∧
    val (sBoxSubstitution s) = S6[x.toFin].toNat ∧
    (sBoxRow s).val = 2 * (x.toNat / 32) + x.toNat % 2) ∧
  S6.toList.map BitVec.toNat =
    [14, 0, 4, 15, 13, 7, 1, 4, 2, 14, 15, 2, 11, 13, 8, 1] ++ [3, 10, 10, 6, 6, 12, 12, 11, 5, 9, 9, 5, 0, 3, 7, 8] ++
    [4, 15, 1, 12, 14, 8, 8, 2, 13, 4, 6, 9, 2, 1, 11, 7] ++ [15, 5, 12, 11, 9, 3, 7, 14, 3, 10, 10, 0, 5, 6, 0, 13]

/-- Rule R74: each row holds every value once, every value occurs four times in the stage (once a row), and the
stage is not injective. -/
def Obligations.SubstitutionTableProperties : Prop :=
  (∀ (row : Fin 4) (v : Fin 16), ∃! col : Fin 16, SBOX[row][col] = v) ∧
  (∀ v : Fin 16, ((Finset.range 64).filter (fun x => val (sBoxSubstitution (toBits x 6)) = v)).card = 4) ∧
  (∀ (v : Fin 16) (row : Fin 4), ((Finset.range 64).filter (fun x =>
    sBoxRow (toBits x 6) = row ∧ val (sBoxSubstitution (toBits x 6)) = v)).card = 1) ∧
  ¬ Function.Injective sBoxSubstitution

/-- Rule R76: the P-box on sequences. -/
def Obligations.PBoxSequenceForm : Prop :=
  ∀ s : BitSeq 4, pBoxPermutation s = #v[s[2], s[3], s[0], s[1]]

/-- Rule R77: the P-box is an involution on which the two readings of its table agree; on the key permutation, read
with target positions, they do not. -/
def Obligations.PBoxInvolution : Prop :=
  (∀ s : BitSeq 4, pBoxPermutation (pBoxPermutation s) = s) ∧
  Function.Bijective pBoxPermutation ∧
  (∀ (s : BitSeq 4) (i : Fin 4), (pBoxPermutation s).toList[pBox[i] - 1]? = s.toList[i.val]? ∧
    (pBoxPermutation s).toList[i.val]? = s.toList[pBox[i] - 1]?) ∧
  (∀ (s : BitSeq 6) (i : Fin 6), (permuteToTarget keyPerm s).toList[keyPerm[i] - 1]? = s.toList[i.val]?) ∧
  (∃ (s : BitSeq 6) (i : Fin 6), (permuteToTarget keyPerm s).toList[i.val]? ≠ s.toList[keyPerm[i] - 1]?)

/-- Rule R78: the P-box on integers. -/
def Obligations.PBoxIntegerForm : Prop :=
  (∀ sbox : BitSeq 4,
    let s := val sbox
    let p := val (pBoxPermutation sbox)
    slice p 3 2 = slice s 1 0 ∧ slice p 1 0 = slice s 3 2 ∧ p = 4 * (s % 4) + s / 4) ∧
  (List.range 16).map (fun s => val (pBoxPermutation (toBits s 4))) =
    [0, 4, 8, 12, 1, 5, 9, 13, 2, 6, 10, 14, 3, 7, 11, 15]

/-! ### The round and the two operations (spec/45_feistel_round.md) -/

/-- Rules R79 and R80: the two combiners, element by element and on integers. -/
def Obligations.CombinersAreXor : Prop :=
  (∀ (expanded roundKey : BitSeq 6),
    (∀ i : Fin 6, (mixKey expanded roundKey)[i] = (expanded[i] ^^ roundKey[i])) ∧
    val (mixKey expanded roundKey) = val expanded ^^^ val roundKey) ∧
  (∀ (h : BitSeq 4) (key : Key),
    let k := toBits key.toNat 6
    mixKey (expansionBox h) (defineRoundKey key) =
      #v[h[3] ^^ k[0], h[0] ^^ k[5], h[1] ^^ k[3], h[2] ^^ k[4], h[3] ^^ k[1], h[0] ^^ k[2]]) ∧
  mixKey #v[true, true, true, true, true, true] #v[true, true, false, true, false, true] =
    #v[false, false, true, false, true, false] ∧
  (∀ (perm left : BitSeq 4),
    (∀ i : Fin 4, (mixHalf perm left)[i] = (perm[i] ^^ left[i])) ∧
    val (mixHalf perm left) = val perm ^^^ val left ∧
    mixHalf (mixHalf perm left) left = perm) ∧
  mixHalf #v[true, true, true, true] #v[true, false, true, true] = #v[false, true, false, false]

/-- Rule R92: the integer forms of both operations agree with the BitSequence forms, on every block and key. -/
def Obligations.IntegerFormsAgree : Prop :=
  (∀ (p : Block) (k : Key), intEncrypt p k = encrypt p k ∧ (encrypt p k).toNat =
    16 * slice p.toNat 3 0 + ((intF (intRight p) (intRoundKey k)).toNat ^^^ slice p.toNat 7 4)) ∧
  (∀ (c : Block) (k : Key), intDecrypt c k = decrypt c k ∧ (decrypt c k).toNat =
    16 * ((intF (intLeft c) (intRoundKey k)).toNat ^^^ slice c.toNat 3 0) + slice c.toNat 7 4)

/-- Rule R85: decryption is encryption between two exchanges of halves. -/
def Obligations.DecryptIsSwappedEncrypt : Prop :=
  ∀ (c : Block) (k : Key), decrypt c k = swapHalves (encrypt (swapHalves c) k)

/-- Rule R88: the two operations are exact inverses in both orders, and bijections for every key. -/
def Obligations.EncryptDecryptInverse : Prop :=
  (∀ (p : Block) (k : Key), decrypt (encrypt p k) k = p ∧ encrypt (decrypt p k) k = p) ∧
  (∀ k : Key, Function.Bijective (fun p => encrypt p k) ∧ Function.Bijective (fun c => decrypt c k))

/-- Rule R90 (a): the half that passes through `F` is carried to the output bit for bit. -/
def Obligations.CarriedHalf : Prop :=
  ∀ (b : Block) (k : Key),
    (blockHalves (encrypt b k)).1 = (blockHalves b).2 ∧ (blockHalves (decrypt b k)).2 = (blockHalves b).1

/-- Rule R91: the fixed points of a round, their number, and the keys that have none, one or three. -/
def Obligations.FixedPointsOfARound : Prop :=
  (∀ (p : Block) (k : Key), encrypt p k = p ↔
    (blockHalves p).1 = (blockHalves p).2 ∧
    roundF (blockHalves p).2 (defineRoundKey k) = #v[false, false, false, false]) ∧
  (∀ (p : Block) (k : Key), encrypt p k = p → decrypt p k = p) ∧
  ((Finset.range 256 ×ˢ Finset.range 64).filter (fun x =>
    encrypt (BitVec.ofNat 8 x.1) (BitVec.ofNat 6 x.2) = BitVec.ofNat 8 x.1)).card = 64 ∧
  (∀ k : Key, let n := ((Finset.range 256).filter (fun p => encrypt (BitVec.ofNat 8 p) k = BitVec.ofNat 8 p)).card
    if 16 ≤ k.toNat ∧ k.toNat ≤ 47 then n = 0 else n = 1 ∨ n = 3) ∧
  encrypt 0xBF 43 = 0xF4 ∧ encrypt 0xBF 43 ≠ 0xBF

/-- The scenario of the source's section 8 with the intermediates of rules R83 and R84. -/
def Obligations.ScenarioTrace : Prop :=
  blockHalves 0xBF = (#v[true, false, true, true], #v[true, true, true, true]) ∧
  expansionBox #v[true, true, true, true] = #v[true, true, true, true, true, true] ∧
  defineRoundKey 0b101011 = #v[true, true, false, true, false, true] ∧
  sBoxSubstitution #v[false, false, true, false, true, false] = #v[true, true, true, true] ∧
  roundF #v[true, true, true, true] #v[true, true, false, true, false, true] = #v[true, true, true, true] ∧
  roundF #v[false, false, false, false] #v[false, false, false, false, false, false] = #v[true, false, true, true] ∧
  encrypt 0xBF 0b101011 = 0xF4 ∧ decrypt 0xF4 0b101011 = 0xBF ∧
  encrypt3 0xBF 0b101011 = 0x6E ∧ decrypt3 0x6E 0b101011 = 0xBF

/-! ### The two commands -/

/-- ENC completes in every state and for every operand, writing `DOUT` and `DONE` and nothing else of the
architectural state (rule R86, with its corner cases and its example word). That nothing is then in progress, also
where another command was, and that the count of free values stays, are the model's choices (log entries 9 and 2). -/
def Obligations.EncCompletes : Prop :=
  (∀ (block : Block) (key : Key) (s : State), exec (.enc block key) s =
    .next { dout := joinHalves (blockHalves block).2
              (mixHalf (roundF (blockHalves block).2 (defineRoundKey key)) (blockHalves block).1)
            done := true, inFlight := none, agenda := s.agenda, freeIx := s.freeIx }) ∧
  (∀ (block : Block) (key : Key), encrypt block key = joinHalves (blockHalves block).2
    (mixHalf (roundF (blockHalves block).2 (defineRoundKey key)) (blockHalves block).1)) ∧
  (∀ (block : Block) (key : Key) (s : State), (blockHalves block).1 = (blockHalves block).2 →
    roundF (blockHalves block).2 (defineRoundKey key) = #v[false, false, false, false] →
    exec (.enc block key) s = .next (complete block s)) ∧
  encrypt 0x00 0 = 0x0B ∧ encrypt 0xFF 63 = 0xF4 ∧ encrypt 0xFF 0 = 0xF8 ∧ encrypt 0x00 63 = 0x07 ∧
  encrypt 0xDD 0 = 0xDD ∧ encrypt 0xBF 0b101011 = 0xF4 ∧ encode (.enc 0xBF 0b101011) = 0x2BBF

/-- DEC completes in every state and for every operand, as ENC does (rule R87); the latch and the count of free
values are the model's choices here too (log entries 9 and 2). -/
def Obligations.DecCompletes : Prop :=
  (∀ (block : Block) (key : Key) (s : State), exec (.dec block key) s =
    .next { dout := joinHalves
              (mixHalf (roundF (blockHalves block).1 (defineRoundKey key)) (blockHalves block).2) (blockHalves block).1
            done := true, inFlight := none, agenda := s.agenda, freeIx := s.freeIx }) ∧
  (∀ (block : Block) (key : Key), decrypt block key = joinHalves
    (mixHalf (roundF (blockHalves block).1 (defineRoundKey key)) (blockHalves block).2) (blockHalves block).1) ∧
  decrypt 0x00 0 = 0xB0 ∧ decrypt 0xFF 63 = 0x4F ∧ decrypt 0x0B 0 = 0x00 ∧ decrypt 0xDD 0 = 0xDD ∧
  decrypt 0xF4 0b101011 = 0xBF ∧ encode (.dec 0xF4 0b101011) = 0x6BF4

/-- The frame of both commands: what neither ENC nor DEC changes. `DOUT`, `DONE` and the latch of the command in
progress are what a command writes; the spec gives the engine no other register, no memory and no program counter
(rules R9, R10). The two fields that stay are the model's own, the events to come (log entry 3) and the count of free
values (log entry 2), and that a command leaves them is the model's choice. -/
def Obligations.CommandFrame : Prop :=
  ∀ (i : Instr) (s t : State), exec i s = .next t → t.agenda = s.agenda ∧ t.freeIx = s.freeIx

/-- The result of a command depends on its operands alone, whatever the state it is presented in (rule R89). In a
state with another command in progress the presentation drops that one, which is the model's choice (log entry 4). -/
def Obligations.ResultIndependentOfState : Prop :=
  ∀ (i : Instr) (s s' : State), ∃ t t', hostRun i s = .next t ∧ hostRun i s' = .next t' ∧
    rspData t = some (resultOf i) ∧ rspData t' = some (resultOf i)

/-! ### The machine: commands, reset, ordering (spec/10, 20, 60 and 70) -/

/-- A command presented to an engine that is ready is what the step runs, the event taken off the agenda; the same of
a table word put before the engine (log entries 3 and 4). -/
def Obligations.StepRunsPresentedCommand : Prop :=
  (∀ (s : State) (p : Ports) (rest : List Event), p.rst = false → p.cmdValid = true → s.inFlight = none →
    step (setAgenda (.instant p :: rest) s) =
      exec (decodeFields p.cmdOp p.cmdKey p.cmdBlock) (setAgenda rest s)) ∧
  (∀ (s : State) (w : CmdWord),
    step (s.withFetchWord 16 w.toNat) = exec (decodeWord w) (setInFlight none s))

/-- Rule R21: what holds right after reset. -/
def Obligations.ResetStateRegisters : Prop :=
  State.reset.done = false ∧ rspData State.reset = none ∧ cmdReady State.reset = true ∧ State.reset.inFlight = none

/-- Rule R108: reset, raised in any state and with or without a command presented at the same instant. -/
def Obligations.ResetEffect : Prop :=
  ∀ (s : State) (p : Ports) (rest : List Event) (e : Event), p.rst = true → e = .instant p ∨ e = .acceptance p →
    ∃ t, step (setAgenda (e :: rest) s) = .next t ∧ t.done = false ∧ rspData t = none ∧ cmdReady t = true ∧
      t.inFlight = none ∧ t.agenda = rest

/-- Rule R109: the first command after a reset has the result of its own operands. -/
def Obligations.FirstCommandAfterReset : Prop :=
  ∀ (s : State) (p : Ports) (i : Instr) (rest : List Event), p.rst = true →
    ∃ t, core.run 2 (setAgenda (.instant p :: presents i :: rest) s) = .next t ∧
      rspData t = some (resultOf i) ∧ t.agenda = rest

/-- Rule R12: acceptance clears `DONE`, completion writes `DOUT` and `DONE` together, and the two in a row have the
net effect of the command run as one step. -/
def Obligations.AcceptanceThenCompletion : Prop :=
  ∀ (s : State) (i : Instr) (rest : List Event), s.inFlight = none →
    ∃ t u v : State,
      step (setAgenda (presentsOpen i :: .completion :: rest) s) = .next t ∧
      t.done = false ∧ rspData t = none ∧ cmdReady t = false ∧
      step t = .next u ∧ u.done = true ∧ u.dout = resultOf i ∧ cmdReady u = true ∧ u.agenda = rest ∧
      step (setAgenda (presents i :: rest) s) = .next v ∧
      v.done = u.done ∧ v.dout = u.dout ∧ v.inFlight = u.inFlight ∧ v.agenda = u.agenda

/-- Rule R29: an engine with a command in progress accepts no other; that command completes first, and what the host
presents stays presented. -/
def Obligations.BusyEngineCompletesFirst : Prop :=
  ∀ (s : State) (i : Instr) (p : Ports) (rest : List Event) (e : Event),
    s.inFlight = some i → p.rst = false → p.cmdValid = true → e = .instant p ∨ e = .acceptance p →
    ∃ t, step (setAgenda (e :: rest) s) = .next t ∧ t.dout = resultOf i ∧ t.done = true ∧
      cmdReady t = true ∧ t.agenda = e :: rest

/-- Rule R110: a command abandoned by a reset leaves what a reset without it leaves. -/
def Obligations.AbandonedCommand : Prop :=
  ∀ (s : State) (i : Instr) (p : Ports) (rest : List Event), p.rst = true →
    ∃ t u, core.run 2 (setAgenda (presentsOpen i :: .instant p :: rest) (setInFlight none s)) = .next t ∧
      step (setAgenda (.instant p :: rest) s) = .next u ∧
      t.done = false ∧ rspData t = none ∧ t.done = u.done ∧ rspData t = rspData u ∧
      t.inFlight = u.inFlight ∧ cmdReady t = true ∧ t.agenda = u.agenda

/-- After any sequence of commands, `DOUT` is the result of the last and `DONE = 1`; nothing of the earlier ones is
left (rules R29 and R118). That a sequence leaves the count of free values alone is the model's choice (log entry 2),
and so is a step for each event the host brings (log entry 3). -/
def Obligations.SequenceEndsWithLastResult : Prop :=
  ∀ (cs : List Instr) (i : Instr) (rest : List Event) (s : State), s.inFlight = none →
    ∃ t, core.run (cs.length + 1) (setAgenda ((cs.map presents) ++ presents i :: rest) s) = .next t ∧
      t.dout = resultOf i ∧ t.done = true ∧ t.inFlight = none ∧ t.agenda = rest ∧ t.freeIx = s.freeIx

/-- The same for commands of which each is either run as one step or accepted first and completed because the next
one waits (rules R12 and R29). That the waiting one stays presented is the model's choice (log entry 3). -/
def Obligations.SplitSequenceEndsWithLastResult : Prop :=
  ∀ (cs : List (Bool × Instr)) (i : Instr) (rest : List Event) (s : State), s.inFlight = none →
    ∃ k t, k ≤ 2 * cs.length + 1 ∧
      core.run k (setAgenda ((cs.map (fun c => if c.1 then presents c.2 else presentsOpen c.2)) ++ presents i :: rest) s)
        = .next t ∧
      rspData t = some (resultOf i) ∧ t.inFlight = none ∧ t.agenda = rest

/-- Every step keeps the registers in agreement: `DONE = 1` with nothing in progress, `DOUT` unspecified while
`DONE = 0` (rules R12, R21, R29). -/
def Obligations.StepKeepsRegistersAgree : Prop :=
  ∀ s t : State, RegistersAgree s → step s = .next t → RegistersAgree t

/-- The registers agree right after reset. -/
def Obligations.ResetRegistersAgree : Prop := RegistersAgree State.reset

/-- Rules R98 and R101: no step faults, and the one refusal is of a host that uses `DOUT` while `DONE = 0`. -/
def Obligations.OnlyEarlyUseIsRefused : Prop :=
  ∀ s : State, (∀ f, step s ≠ .fault f) ∧
    (∀ r, step s = .refused r ↔ r = .doutNotValid ∧ s.done = false ∧ ∃ rest, s.agenda = .useDout :: rest)

/-- Using `DOUT` while `DONE = 1` gives its value and changes nothing (rule R26). While `DONE = 0` the port gives no
value and the use is refused: rule R101 names these two ways, and to have both is the model's choice (log entry 10). -/
def Obligations.UseOfDout : Prop :=
  ∀ (s : State) (rest : List Event),
    (s.done = true → rspData s = some s.dout ∧ step (setAgenda (.useDout :: rest) s) = .next (setAgenda rest s)) ∧
    (s.done = false → rspData s = none ∧ step (setAgenda (.useDout :: rest) s) = .refused .doutNotValid)

/-- Rule R115: the step of a host that keeps its duty is never refused, and leaves a host that keeps it. -/
def Obligations.DutifulHostNeverRefused : Prop :=
  ∀ s : State, Dutiful s → ∃ t, step s = .next t ∧ Dutiful t

/-- A command in progress completes, unless reset intervenes (rules R115 and R120). The bound, one step more than
there are events to come, is the model's (log entries 3 and 5). -/
def Obligations.AcceptedCommandCompletes : Prop :=
  ∀ (s : State) (i : Instr), s.inFlight = some i → Dutiful s → (∀ e ∈ s.agenda, eventResets e = false) →
    ∃ k t, k ≤ s.agenda.length + 1 ∧ core.run k s = .next t ∧
      t.dout = resultOf i ∧ t.done = true ∧ t.inFlight = none

/-- With nothing in progress and no event to come the engine holds its registers (rule R106). An instant with neither
reset nor a command presented changes nothing but the list of events, also while a command is in progress: that one
completes by an event of its own, which is the model's choice (log entries 3 and 5). -/
def Obligations.IdleEngineHolds : Prop :=
  (∀ s : State, s.inFlight = none → s.agenda = [] → step s = .next s) ∧
  (∀ (s : State) (p : Ports) (rest : List Event) (e : Event),
    p.rst = false → p.cmdValid = false → e = .instant p ∨ e = .acceptance p →
    step (setAgenda (e :: rest) s) = .next (setAgenda rest s))

/-! ### The cascade and the host's notation (spec/46_cascade.md, spec/30_encoding.md section 7) -/

/-- Rule R96: three decryptions undo three encryptions under one key, and the other way round. -/
def Obligations.TripleInverse : Prop :=
  ∀ (p : Block) (k : Key), decrypt3 (encrypt3 p k) k = p ∧ encrypt3 (decrypt3 p k) k = p

/-- The host's three commands for ENC3 end with `DOUT = encrypt3(block, key)` and `DONE = 1` (rule R93). The model's
choices in it: the count of free values stays (log entry 2), the first presentation drops a command in progress (log
entry 4), and each command is presented and completes in one instant (log entry 12). -/
def Obligations.HostEnc3 : Prop :=
  (∀ (b : Block) (k : Key) (s : State), ∃ t, hostEnc3 b k s = .next t ∧ t.dout = encrypt (encrypt (encrypt b k) k) k ∧
    t.done = true ∧ t.inFlight = none ∧ t.agenda = s.agenda ∧ t.freeIx = s.freeIx) ∧
  encrypt 0xBF 43 = 0xF4 ∧ encrypt 0xF4 43 = 0x46 ∧ encrypt 0x46 43 = 0x6E ∧ encrypt3 0xBF 43 = 0x6E ∧
  encode (.enc 0xBF 43) = 0x2BBF ∧ encode (.enc 0xF4 43) = 0x2BF4 ∧ encode (.enc 0x46 43) = 0x2B46

/-- The host's three commands for DEC3 (rule R94), with the model's choices of HostEnc3 (log entries 2, 4 and 12). -/
def Obligations.HostDec3 : Prop :=
  (∀ (c : Block) (k : Key) (s : State), ∃ t, hostDec3 c k s = .next t ∧ t.dout = decrypt (decrypt (decrypt c k) k) k ∧
    t.done = true ∧ t.inFlight = none ∧ t.agenda = s.agenda ∧ t.freeIx = s.freeIx) ∧
  decrypt 0x6E 43 = 0x46 ∧ decrypt 0x46 43 = 0xF4 ∧ decrypt 0xF4 43 = 0xBF ∧ decrypt3 0x6E 43 = 0xBF ∧
  encode (.dec 0x6E 43) = 0x6B6E ∧ encode (.dec 0x46 43) = 0x6B46 ∧ encode (.dec 0xF4 43) = 0x6BF4

/-- Rule R41: the words ENC and DEC assemble to, whatever their literals in range, and the two example lines
`ENC 0xBF, 0b101011` and `DEC 0xF4, 43`. -/
def Obligations.AssembledWords : Prop :=
  (∀ (b : Block) (k : Key),
    (∃ w, sourceWord { op := .enc, block := b.toNat, key := k.toNat } = some w ∧
      w.toNat = 0x0000 ||| (k.toNat <<< 8) ||| b.toNat) ∧
    (∃ w, sourceWord { op := .dec, block := b.toNat, key := k.toNat } = some w ∧
      w.toNat = 0x4000 ||| (k.toNat <<< 8) ||| b.toNat)) ∧
  parseLine ['E', 'N', 'C', ' ', '0', 'x', 'B', 'F', ',', ' ', '0', 'b', '1', '0', '1', '0', '1', '1'] =
    .ok (some { op := .enc, block := 191, key := 43 }) ∧
  sourceWord { op := .enc, block := 191, key := 43 } = some 0x2BBF ∧
  parseLine ['D', 'E', 'C', ' ', '0', 'x', 'F', '4', ',', ' ', '4', '3'] =
    .ok (some { op := .dec, block := 244, key := 43 }) ∧
  sourceWord { op := .dec, block := 244, key := 43 } = some 0x6BF4

/-- A driver truncates a value wider than its field; the range check accepts what rule R41 accepts and refuses the
rest by name. Rule R43 allows either, and that the driver truncates and the check refuses is the model's choice (log
entry 12). -/
def Obligations.WideOperands : Prop :=
  (∀ b k : Nat, (truncateBlock b).toNat = b % 256 ∧ (truncateKey k).toNat = k % 64) ∧
  (∀ (op : SourceOp) (b k : Nat) (s : State),
    hostRunSource { op := op, block := b, key := k } s = hostRunSource { op := op, block := b % 256, key := k % 64 } s) ∧
  (∀ c : SourceCommand, (checkRange c = .ok c ↔ c.block ≤ 255 ∧ c.key ≤ 63) ∧
    (checkRange c ≠ .ok c → checkRange c = .error .blockOutOfRange ∨ checkRange c = .error .keyOutOfRange))
end

