-- ==== Sys2Proof/Laws/State.lean ====
section
/-! SUPPORT. One lemma per field of State per update of Machine/Flags.lean and Machine/Ops.lean. -/

namespace Sys2Proof.Machine

variable (s : State)

@[simp] theorem setDone_dout : (setDone s).dout = s.dout := rfl
@[simp] theorem setDone_done : (setDone s).done = true := rfl
@[simp] theorem setDone_inFlight : (setDone s).inFlight = s.inFlight := rfl
@[simp] theorem setDone_agenda : (setDone s).agenda = s.agenda := rfl
@[simp] theorem setDone_freeIx : (setDone s).freeIx = s.freeIx := rfl

@[simp] theorem clearDone_dout : (clearDone s).dout = s.dout := rfl
@[simp] theorem clearDone_done : (clearDone s).done = false := rfl
@[simp] theorem clearDone_inFlight : (clearDone s).inFlight = s.inFlight := rfl
@[simp] theorem clearDone_agenda : (clearDone s).agenda = s.agenda := rfl
@[simp] theorem clearDone_freeIx : (clearDone s).freeIx = s.freeIx := rfl

@[simp] theorem writeDout_dout (result : BitVec 8) : (writeDout result s).dout = result := rfl
@[simp] theorem writeDout_done (result : BitVec 8) : (writeDout result s).done = s.done := rfl
@[simp] theorem writeDout_inFlight (result : BitVec 8) : (writeDout result s).inFlight = s.inFlight := rfl
@[simp] theorem writeDout_agenda (result : BitVec 8) : (writeDout result s).agenda = s.agenda := rfl
@[simp] theorem writeDout_freeIx (result : BitVec 8) : (writeDout result s).freeIx = s.freeIx := rfl

@[simp] theorem setInFlight_dout (i : Option Instr) : (setInFlight i s).dout = s.dout := rfl
@[simp] theorem setInFlight_done (i : Option Instr) : (setInFlight i s).done = s.done := rfl
@[simp] theorem setInFlight_inFlight (i : Option Instr) : (setInFlight i s).inFlight = i := rfl
@[simp] theorem setInFlight_agenda (i : Option Instr) : (setInFlight i s).agenda = s.agenda := rfl
@[simp] theorem setInFlight_freeIx (i : Option Instr) : (setInFlight i s).freeIx = s.freeIx := rfl

@[simp] theorem setAgenda_dout (events : List Event) : (setAgenda events s).dout = s.dout := rfl
@[simp] theorem setAgenda_done (events : List Event) : (setAgenda events s).done = s.done := rfl
@[simp] theorem setAgenda_inFlight (events : List Event) : (setAgenda events s).inFlight = s.inFlight := rfl
@[simp] theorem setAgenda_agenda (events : List Event) : (setAgenda events s).agenda = events := rfl
@[simp] theorem setAgenda_freeIx (events : List Event) : (setAgenda events s).freeIx = s.freeIx := rfl

@[simp] theorem forgetDout_dout : (forgetDout s).dout = Config.unspecifiedDout s.freeIx := rfl
@[simp] theorem forgetDout_done : (forgetDout s).done = s.done := rfl
@[simp] theorem forgetDout_inFlight : (forgetDout s).inFlight = s.inFlight := rfl
@[simp] theorem forgetDout_agenda : (forgetDout s).agenda = s.agenda := rfl
@[simp] theorem forgetDout_freeIx : (forgetDout s).freeIx = s.freeIx + 1 := rfl

@[simp] theorem accept_dout (i : Instr) : (accept i s).dout = Config.unspecifiedDout s.freeIx := rfl
@[simp] theorem accept_done (i : Instr) : (accept i s).done = false := rfl
@[simp] theorem accept_inFlight (i : Instr) : (accept i s).inFlight = some i := rfl
@[simp] theorem accept_agenda (i : Instr) : (accept i s).agenda = s.agenda := rfl
@[simp] theorem accept_freeIx (i : Instr) : (accept i s).freeIx = s.freeIx + 1 := rfl

@[simp] theorem complete_dout (result : BitVec 8) : (complete result s).dout = result := rfl
@[simp] theorem complete_done (result : BitVec 8) : (complete result s).done = true := rfl
@[simp] theorem complete_inFlight (result : BitVec 8) : (complete result s).inFlight = none := rfl
@[simp] theorem complete_agenda (result : BitVec 8) : (complete result s).agenda = s.agenda := rfl
@[simp] theorem complete_freeIx (result : BitVec 8) : (complete result s).freeIx = s.freeIx := rfl

@[simp] theorem applyReset_dout : (applyReset s).dout = Config.unspecifiedDout s.freeIx := rfl
@[simp] theorem applyReset_done : (applyReset s).done = false := rfl
@[simp] theorem applyReset_inFlight : (applyReset s).inFlight = none := rfl
@[simp] theorem applyReset_agenda : (applyReset s).agenda = s.agenda := rfl
@[simp] theorem applyReset_freeIx : (applyReset s).freeIx = s.freeIx + 1 := rfl

/-- The last agenda set is the one that counts. -/
@[simp] theorem setAgenda_setAgenda (a b : List Event) : setAgenda a (setAgenda b s) = setAgenda a s := rfl

/-- Setting the agenda to what it is changes nothing. -/
@[simp] theorem setAgenda_agenda_self : setAgenda s.agenda s = s := rfl

end Sys2Proof.Machine
end

