-- ==== Sys2Proof/Laws/Ops.lean ====
section
/-! SUPPORT. What each shared operation can do, said once: the meanings of the commands, the output ports, the host's use
of `DOUT`, and the ports at an instant. -/

namespace Sys2Proof.Machine

/-- A command answers one thing only: the completion with its result. -/
theorem exec_eq_complete (i : Instr) (s : State) : exec i s = .next (complete (resultOf i) s) := by
  cases i <;> rfl

theorem rspData_of_done {s : State} (h : s.done = true) : rspData s = some s.dout := by
  simp [rspData, h]

theorem rspData_of_not_done {s : State} (h : s.done = false) : rspData s = none := by
  simp [rspData, h]

theorem cmdReady_eq_true {s : State} : cmdReady s = true ↔ s.inFlight = none := by
  simp [cmdReady]

theorem hostUseDout_of_done {s : State} (h : s.done = true) : hostUseDout s = .next s := by
  simp [hostUseDout, rspData_of_done h]

theorem hostUseDout_of_not_done {s : State} (h : s.done = false) : hostUseDout s = .refused .doutNotValid := by
  simp [hostUseDout, rspData_of_not_done h]

theorem finishInFlight_of_none {s : State} (h : s.inFlight = none) : finishInFlight s = .next s := by
  simp [finishInFlight, h]

theorem finishInFlight_of_some {s : State} {i : Instr} (h : s.inFlight = some i) :
    finishInFlight s = .next (complete (resultOf i) s) := by
  simp [finishInFlight, h, exec_eq_complete]

/-- The five things the ports at an instant can do. -/
theorem onPorts_cases (whole : Bool) (p : Ports) (rest : List Event) (s : State) :
    (p.rst = true ∧ onPorts whole p rest s = .next (applyReset (setAgenda rest s))) ∨
    (p.rst = false ∧ p.cmdValid = false ∧ onPorts whole p rest s = .next (setAgenda rest s)) ∨
    (p.rst = false ∧ p.cmdValid = true ∧ s.inFlight = none ∧ whole = true ∧
      onPorts whole p rest s = .next (complete (resultOf (portsCommand p)) (setAgenda rest s))) ∨
    (p.rst = false ∧ p.cmdValid = true ∧ s.inFlight = none ∧ whole = false ∧
      onPorts whole p rest s = .next (accept (portsCommand p) (setAgenda rest s))) ∨
    (p.rst = false ∧ p.cmdValid = true ∧ ∃ i, s.inFlight = some i ∧
      onPorts whole p rest s = .next (complete (resultOf i) s)) := by
  cases hr : p.rst
  case true => exact .inl ⟨rfl, by simp [onPorts, hr]⟩
  case false =>
    cases hv : p.cmdValid
    case false => exact .inr (.inl ⟨rfl, rfl, by simp [onPorts, hr, hv]⟩)
    case true =>
      cases hf : s.inFlight
      case some i => exact .inr (.inr (.inr (.inr
        ⟨rfl, rfl, i, rfl, by simp [onPorts, hr, hv, cmdReady, hf, finishInFlight_of_some hf]⟩)))
      case none =>
        cases whole
        case true => exact .inr (.inr (.inl
          ⟨rfl, rfl, rfl, rfl, by simp [onPorts, hr, hv, cmdReady, hf, exec_eq_complete]⟩))
        case false => exact .inr (.inr (.inr (.inl
          ⟨rfl, rfl, rfl, rfl, by simp [onPorts, hr, hv, cmdReady, hf]⟩)))

end Sys2Proof.Machine
end

