-- ==== Sys2Proof/Laws/PerInstr.lean ====
section
/-! SUPPORT. Statements about every command as syntax, one lemma per constructor. -/

namespace Sys2Proof.Laws.WellFormedOperands

/-- Every command is well formed: its operands are in the documented domains (rules R37, R38). -/
def Statement (i : Instr) : Prop := i.wf = true

theorem enc (block : Block) (key : Key) : Statement (.enc block key) := by
  have hb := block.isLt
  have hk := key.isLt
  simp [Statement, Instr.wf]
  omega

theorem dec (block : Block) (key : Key) : Statement (.dec block key) := by
  have hb := block.isLt
  have hk := key.isLt
  simp [Statement, Instr.wf]
  omega

end Sys2Proof.Laws.WellFormedOperands
end

