-- ==== Sys2Proof/Laws/Sequence.lean ====
section
/-! SUPPORT. BitSequences by their elements, and what the sequence operations and the codec do to the list of elements. -/

namespace Sys2Proof.Machine

/-- A sequence of four elements is its four elements. -/
theorem bitSeq4_cases (s : BitSeq 4) : ∃ a b c d, s = #v[a, b, c, d] := by
  obtain ⟨⟨l⟩, h⟩ := s
  match l, h with
  | [a, b, c, d], _ => exact ⟨a, b, c, d, rfl⟩

/-- A sequence of six elements is its six elements. -/
theorem bitSeq6_cases (s : BitSeq 6) : ∃ a b c d e f, s = #v[a, b, c, d, e, f] := by
  obtain ⟨⟨l⟩, h⟩ := s
  match l, h with
  | [a, b, c, d, e, f], _ => exact ⟨a, b, c, d, e, f, rfl⟩

theorem seqAppend_toList {m n : Nat} (a : BitSeq m) (b : BitSeq n) :
    (seqAppend a b).toList = a.toList ++ b.toList := rfl

theorem seqXor_toList {n : Nat} (a b : BitSeq n) :
    (seqXor a b).toList = List.zipWith Bool.xor a.toList b.toList := rfl

theorem toBits_toList (value width : Nat) : (toBits value width).toList = toBitsList width value [] := rfl

/-- A weight that starts at `i` is a weight that starts at 0, times `2^i`. -/
theorem weigh_eq_mul (i : Nat) (l : List Bool) : weigh i l = 2 ^ i * weigh 0 l := by
  induction l generalizing i with
  | nil => simp [weigh]
  | cons b rest ih => rw [weigh, weigh, ih (i + 1), ih (0 + 1)]; ring

/-- The weight of a concatenation, least significant element first. -/
theorem weigh_append (l m : List Bool) : weigh 0 (l ++ m) = weigh 0 l + 2 ^ l.length * weigh 0 m := by
  induction l with
  | nil => simp [weigh]
  | cons b rest ih =>
    rw [List.cons_append, weigh, weigh, weigh_eq_mul (0 + 1), ih, weigh_eq_mul (0 + 1) rest, List.length_cons]
    ring

end Sys2Proof.Machine
end

