-- ==== Sys2Proof/Laws/Step.lean ====
section
/-! SUPPORT. What a step does, event by event, and what a run of several steps does. -/

namespace Sys2Proof.Machine

theorem step_of_no_event {s : State} (h : s.agenda = []) : step s = finishInFlight s := by
  simp [step, nextEvent, h]

theorem step_of_instant {s : State} {p : Ports} {rest : List Event} (h : s.agenda = .instant p :: rest) :
    step s = onPorts true p rest s := by
  simp [step, nextEvent, h]

theorem step_of_acceptance {s : State} {p : Ports} {rest : List Event} (h : s.agenda = .acceptance p :: rest) :
    step s = onPorts false p rest s := by
  simp [step, nextEvent, h]

theorem step_of_completion {s : State} {rest : List Event} (h : s.agenda = .completion :: rest) :
    step s = finishInFlight (setAgenda rest s) := by
  simp [step, nextEvent, h]

theorem step_of_useDout {s : State} {rest : List Event} (h : s.agenda = .useDout :: rest) :
    step s = hostUseDout (setAgenda rest s) := by
  simp [step, nextEvent, h]

/-- A run goes on from where its first step leads. -/
theorem run_succ {s t : State} (h : step s = .next t) (k : Nat) : core.run (k + 1) s = core.run k t := by
  have h' : core.step s = .next t := h
  simp [Host.Core.run, h']

/-- A run of no step stays where it is. -/
theorem run_zero (s : State) : core.run 0 s = .next s := rfl

/-- Everything a step that answers a state can have done. -/
theorem step_cases {s t : State} (h : step s = .next t) :
    (∃ a, t = setAgenda a s) ∨
    (∃ a, t = applyReset (setAgenda a s)) ∨
    (∃ i a, t = complete (resultOf i) (setAgenda a s)) ∨
    (∃ i a, s.inFlight = none ∧ t = accept i (setAgenda a s)) := by
  have ports : ∀ whole p rest, onPorts whole p rest s = .next t →
      (∃ a, t = setAgenda a s) ∨ (∃ a, t = applyReset (setAgenda a s)) ∨
      (∃ i a, t = complete (resultOf i) (setAgenda a s)) ∨
      (∃ i a, s.inFlight = none ∧ t = accept i (setAgenda a s)) := by
    intro whole p rest hp
    obtain ⟨_, e⟩ | ⟨_, _, e⟩ | ⟨_, _, _, _, e⟩ | ⟨_, _, hn, _, e⟩ | ⟨_, _, i, _, e⟩ := onPorts_cases whole p rest s
    all_goals rw [e] at hp; cases hp
    · exact .inr (.inl ⟨_, rfl⟩)
    · exact .inl ⟨_, rfl⟩
    · exact .inr (.inr (.inl ⟨_, _, rfl⟩))
    · exact .inr (.inr (.inr ⟨_, _, hn, rfl⟩))
    · exact .inr (.inr (.inl ⟨i, s.agenda, rfl⟩))
  have finish : ∀ a, finishInFlight (setAgenda a s) = .next t →
      (∃ a, t = setAgenda a s) ∨ (∃ i a, t = complete (resultOf i) (setAgenda a s)) := by
    intro a hf
    cases hi : s.inFlight with
    | none => rw [finishInFlight_of_none (s := setAgenda a s) hi] at hf; cases hf; exact .inl ⟨a, rfl⟩
    | some i => rw [finishInFlight_of_some (s := setAgenda a s) hi] at hf; cases hf; exact .inr ⟨i, a, rfl⟩
  cases ha : s.agenda with
  | nil =>
    rw [step_of_no_event ha] at h
    exact (finish s.agenda h).imp_right fun f => .inr (.inl f)
  | cons e rest =>
    cases e with
    | instant p => rw [step_of_instant ha] at h; exact ports _ _ _ h
    | acceptance p => rw [step_of_acceptance ha] at h; exact ports _ _ _ h
    | completion => rw [step_of_completion ha] at h; exact (finish rest h).imp_right fun f => .inr (.inl f)
    | useDout =>
      rw [step_of_useDout ha] at h
      cases hd : s.done with
      | true => rw [hostUseDout_of_done (s := setAgenda rest s) hd] at h; cases h; exact .inl ⟨rest, rfl⟩
      | false => rw [hostUseDout_of_not_done (s := setAgenda rest s) hd] at h; cases h

end Sys2Proof.Machine
end

