-- ==== Sys2Proof/Laws/Word.lean ====
section
/-! SUPPORT. The command word and its fields as numbers. -/

namespace Sys2Proof

theorem joinFields_toNat (op : BitVec 1) (key : Key) (block : Block) :
    (joinFields op key block).toNat = op.toNat * 2 ^ 14 + key.toNat * 2 ^ 8 + block.toNat := by
  have hk : key.toNat < 2 ^ 6 := key.isLt
  have hb : block.toNat < 2 ^ 8 := block.isLt
  have e : op.toNat <<< 6 ||| key.toNat = op.toNat * 2 ^ 6 + key.toNat := by
    rw [← Nat.shiftLeft_add_eq_or_of_lt hk, Nat.shiftLeft_eq]
  simp only [joinFields, BitVec.toNat_append, e]
  rw [← Nat.shiftLeft_add_eq_or_of_lt hb, Nat.shiftLeft_eq]
  omega

theorem opField_toNat (w : CmdWord) : (opField w).toNat = w.toNat / 2 ^ 14 := by
  have : w.toNat < 32768 := w.isLt
  simp [opField, BitVec.extractLsb'_toNat, Nat.shiftRight_eq_div_pow]
  omega

theorem keyField_toNat (w : CmdWord) : (keyField w).toNat = w.toNat / 2 ^ 8 % 2 ^ 6 := by
  simp [keyField, BitVec.extractLsb'_toNat, Nat.shiftRight_eq_div_pow]

theorem blockField_toNat (w : CmdWord) : (blockField w).toNat = w.toNat % 2 ^ 8 := by
  simp [blockField, BitVec.extractLsb'_toNat]

/-- The operation bit is 0 or 1. -/
theorem op_cases (op : BitVec 1) : op = 0#1 ∨ op = 1#1 := by
  have h : op.toNat < 2 := op.isLt
  rcases Nat.lt_or_ge op.toNat 1 with h1 | h1
  · exact .inl (BitVec.eq_of_toNat_eq (by simp; omega))
  · exact .inr (BitVec.eq_of_toNat_eq (by simp; omega))

end Sys2Proof
end

