-- ==== Sys2Proof/Tests/Slice0.lean ====
section
/-! SUPPORT. Tests: expected values are from spec/95_test_vectors.md and the examples in the rules; and witnesses
that the hypotheses of the statements in Certificates/Slice0/Obligations.lean can be met. -/

namespace Sys2Proof.Tests

open Sys2Proof.Machine

/-! ### Well-formedness: an ill-formed term for each check of a source command.
`Instr.wf` has no ill-formed term: its fields are as wide as the ports (rules R37, R38). -/

theorem test_wf_refuses_wide_block : ({ op := .enc, block := 256, key := 63 } : SourceCommand).wf = false := by decide

theorem test_wf_refuses_wide_key : ({ op := .dec, block := 255, key := 64 } : SourceCommand).wf = false := by decide

theorem test_wf_accepts_top : ({ op := .enc3, block := 255, key := 63 } : SourceCommand).wf = true := by decide

/-! ### Decoding: words written bit by bit from `okkkkkkbbbbbbbb` (rule R35). -/

/-- `0 101011 10111111` is `ENC 0xBF, 43` (section 3.11). -/
theorem test_decode_enc : decodeWord 0b010101110111111#15 = .enc 0b10111111 0b101011 := by decide

/-- `1 100000 10000000` is `DEC 0x80, 32` (section 3.11). -/
theorem test_decode_dec : decodeWord 0b110000010000000#15 = .dec 0b10000000 0b100000 := by decide

theorem test_decode_refuses_sixteenth_bit :
    decodeTableWord 16 0x8000 = none ∧ decodeTableWord 16 0x7FFF = some (.dec 0xFF 63) := by decide

/-- With 8 bits given, the bits above them are 0. -/
theorem test_decode_short_word : decodeTableWord 8 0x40DD = some (.enc 0xDD 0) := by decide

/-! ### One step of each command, from reset. -/

/-- The result the host may use after one step that runs the word, from reset. -/
def resultOfWord (w : Nat) : Option (BitVec 8) :=
  match step (State.reset.withFetchWord 16 w) with
  | .next s => rspData s
  | .fault _ => none
  | .refused _ => none

/-- The detectors of section 3.13: ENC 0xBF, 43; 0x5A, 21; 0xC3, 36; 0x01, 1; 0x96, 50. -/
theorem test_enc_detectors :
    [0x2BBF, 0x155A, 0x24C3, 0x0101, 0x3296].map resultOfWord =
      [some 0xF4, some 0xA1, some 0x3E, some 0x13, some 0x60] := by decide

/-- The corner cases of section 3.7: ENC 0x00, 0; 0xFF, 63; 0xFF, 0; 0x00, 63; 0xDD, 0; 0x80, 32. -/
theorem test_enc_corners :
    [0x0000, 0x3FFF, 0x00FF, 0x3F00, 0x00DD, 0x2080].map resultOfWord =
      [some 0x0B, some 0xF4, some 0xF8, some 0x07, some 0xDD, some 0x09] := by decide

/-- The detectors of section 3.13: DEC 0xF4, 43; 0xA1, 21; 0x00, 0. -/
theorem test_dec_detectors :
    [0x6BF4, 0x55A1, 0x4000].map resultOfWord = [some 0xBF, some 0x5A, some 0xB0] := by decide

/-- The corner cases of section 3.8: DEC 0xFF, 63; 0x0B, 0; 0xFF, 0; 0x00, 63; 0xBF, 43; 0x80, 32. -/
theorem test_dec_corners :
    [0x7FFF, 0x400B, 0x40FF, 0x7F00, 0x6BBF, 0x6080].map resultOfWord =
      [some 0x4F, some 0x00, some 0x8F, some 0x70, some 0xEB, some 0x58] := by decide

/-! ### The stages (sections 3.2, 3.4 and 3.6). -/

/-- Round keys of the single-bit keys, of 43, 21, 36 and 27 (section 3.2). -/
theorem test_round_keys :
    [1, 2, 4, 8, 16, 32, 43, 21, 36, 27].map (fun k : Key => val (defineRoundKey k)) =
      [16, 4, 8, 1, 2, 32, 53, 26, 40, 23] := by decide

/-- Inputs that tell the row bits and the column bits apart: 1, 32, 33, 30, 63, 10, 34 (section 3.4). -/
theorem test_substitution_entries :
    [1, 32, 33, 30, 63, 10, 34].map (fun x => sBoxEntry (toBits x 6)) = [0, 4, 15, 7, 13, 15, 1] := by decide

/-- The row of round key 53 in the table of section 3.6, `CE5992A5B411827F`. -/
theorem test_round_function_row :
    (List.range 16).map (fun r => val (roundF (toBits r 4) (toBits 53 6))) =
      [0xC, 0xE, 0x5, 0x9, 0x9, 0x2, 0xA, 0x5, 0xB, 0x4, 0x1, 0x1, 0x8, 0x2, 0x7, 0xF] := by decide

/-- Truncation (section 3.1): `toBits(447, 8)`, `toBits(107, 6)`. -/
theorem test_to_bits_truncates :
    toBits 447 8 = #v[true, false, true, true, true, true, true, true] ∧
    toBits 107 6 = #v[true, false, true, false, true, true] := by decide

/-! ### Registers and reset (section 3.12), cascade (section 3.10), syntax (rule R41). -/

/-- The ports with reset raised and a command presented at the same instant. -/
def resetPorts : Ports := { presenting 0x2BBF with rst := true }

/-- An engine that has accepted `ENC 0xBF, 43` and not completed it, with the given events to come. -/
def busyState (events : List Event) : State := setAgenda events (accept (.enc 0xBF 43) State.reset)

/-- An engine that has completed `ENC 0xBF, 43`, with the given events to come. -/
def doneState (events : List Event) : State := setAgenda events (complete 0xF4 State.reset)

/-- `DONE` and `DOUT` as the host sees them. -/
def seen (o : Host.Outcome State Fault Refusal) : Option (Bool × Option (BitVec 8)) :=
  match o with
  | .next s => some (rspValid s, rspData s)
  | .fault _ => none
  | .refused _ => none

/-- Accepted: `DONE = 0` and no value. -/
theorem test_acceptance :
    seen (step (doneState [.acceptance (presenting 0x6BF4)])) = some (false, none) := by decide

/-- It completes: `DONE = 1` and `0xF4`; the same with no event left. -/
theorem test_completion :
    seen (step (busyState [.completion])) = some (true, some 0xF4) ∧
    seen (step (busyState [])) = some (true, some 0xF4) := by decide

/-- Reset before completion, with a command presented at the same instant: `DONE = 0` and no value. -/
theorem test_reset_wins :
    seen (step (busyState [.instant resetPorts])) = some (false, none) := by decide

/-- The host reads `DOUT`: nothing changes. -/
theorem test_use_of_dout : seen (step (doneState [.useDout])) = some (true, some 0xF4) := by decide

/-- `ENC3 0xBF, 43` ends with `0x6E` (section 3.10). -/
theorem test_enc3 : seen (hostEnc3 0xBF 43 State.reset) = some (true, some 0x6E) := by decide

/-- `DEC3 0x6E, 43` ends with `0xBF` (section 3.10). -/
theorem test_dec3 : seen (hostDec3 0x6E 43 State.reset) = some (true, some 0xBF) := by decide

/-- `ENC3 90,0x15 ;x` is a pseudo-instruction with a decimal and a hexadecimal literal and a comment. -/
theorem test_parse_pseudo :
    parseLine ['E', 'N', 'C', '3', ' ', '9', '0', ',', '0', 'x', '1', '5', ' ', ';', 'x'] =
      .ok (some { op := .enc3, block := 90, key := 21 }) := by decide

/-- `DEC 0xF4, 0xaf` and the digits at the ends of each range: `0x09AF` is 2479, in letters of either case. -/
theorem test_parse_hexadecimal :
    parseLine ['D', 'E', 'C', ' ', '0', 'x', 'F', '4', ',', ' ', '0', 'x', 'a', 'f'] =
      .ok (some { op := .dec, block := 244, key := 175 }) ∧
    literalValue ['0', 'x', '0', '9', 'A', 'F'] = some 2479 ∧ literalValue ['0', 'x', '0', '9', 'a', 'f'] = some 2479 ∧
    literalValue ['0', 'x', 'G'] = none ∧ literalValue ['1', 'A'] = none := by decide

/-- `ENC 5` has one operand; a binary literal has no digit 2. -/
theorem test_parse_refuses :
    parseLine ['E', 'N', 'C', ' ', '5'] = .error .badOperands ∧
    parseLine ['E', 'N', 'C', ' ', '0', 'b', '2', ',', '1'] = .error .badLiteral ∧
    parseLine ['N', 'O', 'P'] = .error .unknownMnemonic := by decide

/-! ### Witnesses: concrete states and operands that meet the hypotheses of the statements. -/

/-- FixedPointsOfARound and the unchanged block of EncCompletes: (`0xDD`, 0) is a fixed point. -/
theorem witness_fixed_point :
    encrypt 0xDD 0 = 0xDD ∧ (blockHalves 0xDD).1 = (blockHalves 0xDD).2 ∧
    roundF (blockHalves 0xDD).2 (defineRoundKey 0) = #v[false, false, false, false] := by decide

/-- FixedPointsOfARound: the keys at both ends of the range without fixed points, and the two next to it. -/
theorem witness_key_ranges :
    (16 ≤ (16 : Key).toNat ∧ (16 : Key).toNat ≤ 47) ∧ (16 ≤ (47 : Key).toNat ∧ (47 : Key).toNat ≤ 47) ∧
    ¬ (16 ≤ (15 : Key).toNat ∧ (15 : Key).toNat ≤ 47) ∧ ¬ (16 ≤ (48 : Key).toNat ∧ (48 : Key).toNat ≤ 47) := by decide

/-- CommandFrame, for each of the two commands. -/
theorem witness_exec_answers :
    exec (.enc 0xBF 43) State.reset = .next (complete (encrypt 0xBF 43) State.reset) ∧
    exec (.dec 0xF4 43) State.reset = .next (complete (decrypt 0xF4 43) State.reset) := ⟨rfl, rfl⟩

/-- StepRunsPresentedCommand. -/
theorem witness_presented :
    (presenting 0x2BBF).rst = false ∧ (presenting 0x2BBF).cmdValid = true ∧ State.reset.inFlight = none := by decide

/-- ResetEffect, FirstCommandAfterReset, AbandonedCommand: reset raised, here with a command presented. -/
theorem witness_reset_ports :
    resetPorts.rst = true ∧ resetPorts.cmdValid = true ∧
    (Event.instant resetPorts = .instant resetPorts ∨ Event.instant resetPorts = .acceptance resetPorts) ∧
    (Event.acceptance resetPorts = .instant resetPorts ∨ Event.acceptance resetPorts = .acceptance resetPorts) :=
  ⟨rfl, rfl, .inl rfl, .inr rfl⟩

/-- AcceptanceThenCompletion, SequenceEndsWithLastResult, SplitSequenceEndsWithLastResult: a ready engine, before and
after a first result. -/
theorem witness_ready : State.reset.inFlight = none ∧ (doneState []).inFlight = none := ⟨rfl, rfl⟩

/-- BusyEngineCompletesFirst, for both kinds of event. -/
theorem witness_busy :
    (busyState []).inFlight = some (.enc 0xBF 43) ∧ (presenting 0x6BF4).rst = false ∧ (presenting 0x6BF4).cmdValid = true ∧
    (Event.instant (presenting 0x6BF4) = .instant (presenting 0x6BF4) ∨
      Event.instant (presenting 0x6BF4) = .acceptance (presenting 0x6BF4)) ∧
    (Event.acceptance (presenting 0x6BF4) = .instant (presenting 0x6BF4) ∨
      Event.acceptance (presenting 0x6BF4) = .acceptance (presenting 0x6BF4)) :=
  ⟨rfl, rfl, rfl, .inl rfl, .inr rfl⟩

/-- StepKeepsRegistersAgree: with `DONE = 0`, a command in progress and a reset to come. -/
theorem witness_registers_agree :
    RegistersAgree (busyState [.instant resetPorts]) ∧
    ∃ t, step (busyState [.instant resetPorts]) = .next t :=
  ⟨⟨fun h => (nomatch h), fun _ => ⟨1, by decide, rfl⟩⟩, _, rfl⟩

/-- StepKeepsRegistersAgree: with `DONE = 1`. -/
theorem witness_registers_agree_done :
    RegistersAgree (doneState [.completion]) ∧ ∃ t, step (doneState [.completion]) = .next t :=
  ⟨⟨fun _ => rfl, fun h => (nomatch h)⟩, _, rfl⟩

/-- UseOfDout, both clauses; OnlyEarlyUseIsRefused, its refusal. -/
theorem witness_use_of_dout :
    (doneState []).done = true ∧ (busyState []).done = false ∧
    step (busyState [.useDout]) = .refused .doutNotValid := ⟨rfl, rfl, rfl⟩

/-- DutifulHostNeverRefused and AcceptedCommandCompletes: a command in progress, an instant with nothing presented,
its completion, and then the use of its result. -/
theorem witness_dutiful :
    (busyState [.instant idlePorts, .completion, .useDout]).inFlight = some (.enc 0xBF 43) ∧
    Dutiful (busyState [.instant idlePorts, .completion, .useDout]) ∧
    ∀ e ∈ (busyState [.instant idlePorts, .completion, .useDout]).agenda, eventResets e = false :=
  ⟨rfl, rfl, by decide⟩

/-- IdleEngineHolds, its second clause while a command is in progress: an idle instant leaves it in progress. -/
theorem witness_idle_busy :
    (busyState []).inFlight = some (.enc 0xBF 43) ∧ idlePorts.rst = false ∧ idlePorts.cmdValid = false ∧
    step (busyState [.instant idlePorts]) = .next (busyState []) ∧
    step (busyState [.acceptance idlePorts]) = .next (busyState []) := ⟨rfl, rfl, rfl, rfl, rfl⟩

/-- IdleEngineHolds, both clauses, with nothing in progress. -/
theorem witness_idle :
    State.reset.inFlight = none ∧ State.reset.agenda = [] ∧ idlePorts.rst = false ∧ idlePorts.cmdValid = false ∧
    (Event.instant idlePorts = .instant idlePorts ∨ Event.instant idlePorts = .acceptance idlePorts) ∧
    (Event.acceptance idlePorts = .instant idlePorts ∨ Event.acceptance idlePorts = .acceptance idlePorts) :=
  ⟨rfl, rfl, rfl, rfl, .inl rfl, .inr rfl⟩

/-- WideOperands: a command the range check refuses for each operand, and one it accepts, at the boundary. -/
theorem witness_range_check :
    checkRange { op := .enc, block := 256, key := 0 } = .error .blockOutOfRange ∧
    checkRange { op := .dec, block := 0, key := 64 } = .error .keyOutOfRange ∧
    checkRange { op := .enc, block := 255, key := 63 } = .ok { op := .enc, block := 255, key := 63 } := by decide

end Sys2Proof.Tests
end

/-! PROOFS. Command words (spec/30_encoding.md): the match and mask of the opcode map, and the fields of a command word
as numbers, as slices and as the elements and halves the codec makes of them. -/

namespace Sys2Proof.Machine

/-! ### The codec's loop and what `val` and `splitHalves` make of its result -/

/-- The digits written last stand in front of whatever is written already. -/
theorem toBitsList_eq_append (width v : Nat) (bits : List Bool) :
    toBitsList width v bits = toBitsList width v [] ++ bits := by
  induction width generalizing v bits with
  | zero => rfl
  | succ width ih => rw [toBitsList, toBitsList, ih, ih _ [_], List.append_assoc, List.singleton_append]

/-- The loop in two runs: `n` digits of `v` first, then `m` digits of what is left of it. -/
theorem toBitsList_add (m n v : Nat) (bits : List Bool) :
    toBitsList (m + n) v bits = toBitsList m (v / 2 ^ n) (toBitsList n v bits) := by
  induction n generalizing v bits with
  | zero => simp [toBitsList]
  | succ n ih => rw [← Nat.add_assoc, toBitsList, ih, toBitsList, Nat.div_div_eq_div_mul, Nat.pow_succ']

/-- The first element of `width + 1` is bit `width` (rule R45). -/
theorem toBitsList_succ_eq_cons (width v : Nat) (bits : List Bool) :
    toBitsList (width + 1) v bits = v.testBit width :: toBitsList width v bits := by
  rw [Nat.add_comm, toBitsList_add, Nat.testBit_eq_decide_div_mod_eq]
  rfl

theorem toBitsList_getElem? {width j : Nat} (v : Nat) (bits : List Bool) (h : j < width) :
    (toBitsList width v bits)[j]? = some (v.testBit (width - 1 - j)) := by
  induction width generalizing j with
  | zero => omega
  | succ width ih =>
    rw [toBitsList_succ_eq_cons]
    cases j with
    | zero => simp
    | succ j =>
      have e : width + 1 - 1 - (j + 1) = width - 1 - j := by omega
      rw [List.getElem?_cons_succ, ih (by omega), e]

/-- Element `j` of `toBits(v, width)` is bit `width - 1 - j` of `v` (rule R45). -/
theorem toBits_getElem {width j : Nat} (v : Nat) (h : j < width) :
    (toBits v width)[j] = v.testBit (width - 1 - j) := by
  have e : (toBits v width).toList[j]? = some (toBits v width)[j] := by simp [h]
  rw [toBits_toList, toBitsList_getElem? v [] h] at e
  exact (Option.some.inj e).symm

/-- `val` gives back what `toBits` kept of its value (rules R46, R51). -/
theorem val_toBits (v width : Nat) : val (toBits v width) = v % 2 ^ width := by
  show weigh 0 (toBitsList width v []).reverse = v % 2 ^ width
  induction width generalizing v with
  | zero => simp [toBitsList, weigh, Nat.mod_one]
  | succ width ih =>
    have hbit : (decide (v % 2 = 1)).toNat = v % 2 := by
      rcases Nat.mod_two_eq_zero_or_one v with h | h <;> simp [h]
    rw [toBitsList, toBitsList_eq_append, List.reverse_append, List.reverse_singleton, List.singleton_append, weigh,
      weigh_eq_mul, ih, hbit, Nat.pow_succ' (n := width), Nat.mod_mul]
    simp

/-- The halves of a number's `2h` digits are the digits of its upper and of its lower part (rule R47). -/
theorem splitHalves_toBits (v h : Nat) :
    splitHalves (toBits v (2 * h)) = (toBits (v / 2 ^ h) h, toBits v h) := by
  have e : (toBits v (2 * h)).toList = (toBits (v / 2 ^ h) h).toList ++ (toBits v h).toList := by
    simp only [toBits_toList]
    rw [Nat.two_mul, toBitsList_add, toBitsList_eq_append]
  refine Prod.ext (Vector.toList_inj.mp ?_) (Vector.toList_inj.mp ?_)
  · show (toBits v (2 * h)).toList.take h = _
    rw [e, List.take_left' (by simp)]
  · show (toBits v (2 * h)).toList.drop h = _
    rw [e, List.drop_left' (by simp)]

/-- Rule R52: the left half is `block[7:4]`. -/
theorem val_blockHalves_fst (block : Block) : val (blockHalves block).1 = slice block.toNat 7 4 := by
  rw [blockHalves, splitHalves_toBits, val_toBits]
  rfl

/-- Rule R52: the right half is `block[3:0]`. -/
theorem val_blockHalves_snd (block : Block) : val (blockHalves block).2 = slice block.toNat 3 0 := by
  rw [blockHalves, splitHalves_toBits, val_toBits, slice, Nat.pow_zero, Nat.div_one]

end Sys2Proof.Machine

namespace Sys2Proof

open Sys2Proof.Machine

/-! ### The opcode map -/

theorem decodeFields_eq_enc_iff {op : BitVec 1} {key : Key} {block : Block} :
    decodeFields op key block = .enc block key ↔ op = 0#1 := by
  obtain rfl | rfl := op_cases op <;> simp [decodeFields]

theorem decodeFields_eq_dec_iff {op : BitVec 1} {key : Key} {block : Block} :
    decodeFields op key block = .dec block key ↔ op = 1#1 := by
  obtain rfl | rfl := op_cases op <;> simp [decodeFields]

/-- The mask of the opcode map keeps the operation bit and nothing else. -/
theorem and_opcodeMask_toNat (w : CmdWord) : (w &&& 0x4000#15).toNat = (opField w).toNat * 2 ^ 14 := by
  have hw : w.toNat < 32768 := w.isLt
  have hbit : (w.toNat.testBit 14).toNat = w.toNat / 2 ^ 14 := by
    rw [Nat.toNat_testBit]
    omega
  calc (w &&& 0x4000#15).toNat = w.toNat &&& 2 ^ 14 := rfl
    _ = (opField w).toNat * 2 ^ 14 := by rw [Nat.and_two_pow, hbit, opField_toNat]

/-- Two words of the mask's form agree when their operation bits do. -/
theorem and_opcodeMask_eq_iff (w : CmdWord) (op : BitVec 1) :
    w &&& 0x4000#15 = joinFields op 0 0 ↔ opField w = op := by
  rw [← BitVec.toNat_inj, and_opcodeMask_toNat, joinFields_toNat, ← BitVec.toNat_inj]
  simp

/-- Settles O5: the masked word is the operation bit in its place, and that bit alone selects the command. -/
theorem opcodeMapByMask : Obligations.OpcodeMapByMask := by
  intro w
  rw [decodeWord, decodeFields_eq_enc_iff, decodeFields_eq_dec_iff]
  exact ⟨and_opcodeMask_eq_iff w 0#1, and_opcodeMask_eq_iff w 1#1⟩

/-! ### The fields of a command word -/

/-- Each field is its own slice of the three fields side by side (rule R35). -/
theorem slices_of_fields {op key block : Nat} (ho : op < 2) (hk : key < 64) (hb : block < 256) :
    slice (op * 2 ^ 14 + key * 2 ^ 8 + block) 14 14 = op ∧ slice (op * 2 ^ 14 + key * 2 ^ 8 + block) 13 8 = key ∧
    slice (op * 2 ^ 14 + key * 2 ^ 8 + block) 7 0 = block := by
  simp only [slice]
  omega

/-- The word on the ports has the three ports as its slices (rules R28, R35). -/
theorem portsWord_slices (p : Ports) :
    p.cmdOp.toNat = slice (portsWord p).toNat 14 14 ∧ p.cmdKey.toNat = slice (portsWord p).toNat 13 8 ∧
    p.cmdBlock.toNat = slice (portsWord p).toNat 7 0 := by
  obtain ⟨hop, hkey, hblock⟩ := slices_of_fields p.cmdOp.isLt p.cmdKey.isLt p.cmdBlock.isLt
  rw [portsWord, joinFields_toNat]
  exact ⟨hop.symm, hkey.symm, hblock.symm⟩

/-- Element 0 of the key's BitSequence is bit 13 of the word (rule R35). -/
theorem toBits_keyField_zero (w : CmdWord) : (toBits (keyField w).toNat 6)[0] = w.getLsbD 13 := by
  rw [toBits_getElem, BitVec.testBit_toNat, keyField]
  simp

/-- Element 0 of the block's BitSequence is bit 7 of the word (rule R35). -/
theorem toBits_blockField_zero (w : CmdWord) : (toBits (blockField w).toNat 8)[0] = w.getLsbD 7 := by
  rw [toBits_getElem, BitVec.testBit_toNat, blockField]
  simp

/-- A slice within the low eight bits of a word is that slice of its block field. -/
theorem slice_blockField (w : CmdWord) :
    slice (blockField w).toNat 7 4 = slice w.toNat 7 4 ∧ slice (blockField w).toNat 3 0 = slice w.toNat 3 0 := by
  rw [blockField_toNat]
  simp only [slice]
  omega

/-- Settles O6: the number of three fields side by side, read back slice by slice and element by element. -/
theorem commandWordFields : Obligations.CommandWordFields := by
  refine ⟨fun b k => joinFields_toNat 0#1 k b, fun b k => joinFields_toNat 1#1 k b,
    fun p => ⟨joinFields_toNat _ _ _, portsWord_slices p⟩, fun w => ?_⟩
  obtain ⟨hleft, hright⟩ := slice_blockField w
  exact ⟨toBits_keyField_zero w, toBits_blockField_zero w, (val_blockHalves_fst _).trans hleft,
    (val_blockHalves_snd _).trans hright⟩

end Sys2Proof

/-! PROOFS. The BitVector codec (spec/40_bitvector_codec.md): `val` bit by bit, `toBits` and `val` as inverses of
each other, the weighted sum, and the halves as lists and as numbers. -/

namespace Sys2Proof.Machine

/-! ### `val` bit by bit, and the two directions of the round trip -/

/-- The first element weighed is the least significant bit, the others are the bits above it. -/
theorem weigh_cons (b : Bool) (rest : List Bool) : weigh 0 (b :: rest) = Nat.bit b (weigh 0 rest) := by
  rw [weigh, weigh_eq_mul, Nat.bit_val]
  omega

theorem testBit_weigh (l : List Bool) (i : Nat) : (weigh 0 l).testBit i = l[i]?.getD false := by
  induction l generalizing i with
  | nil => simp [weigh]
  | cons b rest ih =>
    rw [weigh_cons]
    cases i with
    | zero => simp
    | succ i => rw [Nat.testBit_bit_succ, ih, List.getElem?_cons_succ]

/-- Bit `i` of `val(s)` is element `n - 1 - i` of `s` (rule R50). -/
theorem testBit_val {n i : Nat} (s : BitSeq n) (h : i < n) : (val s).testBit i = s[n - 1 - i] := by
  rw [val, testBit_weigh, List.getElem?_reverse (by simpa using h)]
  simp [show n - 1 - i < n by omega]

/-- `toBits` gives back the sequence it was the value of (rule R51). -/
theorem toBits_val {n : Nat} (s : BitSeq n) : toBits (val s) n = s := by
  refine Vector.ext fun j hj => ?_
  have e : n - 1 - (n - 1 - j) = j := by omega
  rw [toBits_getElem _ hj, testBit_val s (by omega)]
  simp only [e]

/-- A value below `2^n` survives `toBits` and `val` (rule R51). -/
theorem val_toBits_of_lt {v n : Nat} (h : v < 2 ^ n) : val (toBits v n) = v := by
  rw [val_toBits, Nat.mod_eq_of_lt h]

theorem toInteger_toNat (s : BitSeq 8) : (toInteger s).toNat = val s :=
  Nat.mod_eq_of_lt (val_lt s)

/-- `toBits` does not see the bits above its width (rule R46): its value is all that it keeps. -/
theorem toBits_mod (value width : Nat) : toBits value width = toBits (value % 2 ^ width) width := by
  rw [← val_toBits, toBits_val]

/-! ### `val` as a weighted sum -/

theorem weigh_eq_sum (l : List Bool) :
    weigh 0 l = ∑ i ∈ Finset.range l.length, ((weigh 0 l).testBit i).toNat * 2 ^ i := by
  induction l with
  | nil => simp [weigh]
  | cons b rest ih =>
    rw [weigh_cons, List.length_cons, Finset.sum_range_succ', Nat.testBit_bit_zero]
    simp only [Nat.testBit_bit_succ, Nat.pow_succ', Nat.mul_left_comm _ 2]
    rw [← Finset.mul_sum, ← ih, Nat.bit_val, Nat.pow_zero, Nat.mul_one]

/-- Rule R50: element `n - 1 - i` has weight `2^i`. -/
theorem val_eq_sum {n : Nat} (s : BitSeq n) :
    val s = ∑ i : Fin n, (s[n - 1 - i.val]'(by omega)).toNat * 2 ^ i.val := by
  calc val s = ∑ i ∈ Finset.range n, ((val s).testBit i).toNat * 2 ^ i := by
        simpa [val] using weigh_eq_sum s.toList.reverse
    _ = ∑ i : Fin n, ((val s).testBit i).toNat * 2 ^ i.val := Finset.sum_range _
    _ = _ := Finset.sum_congr rfl fun i _ => by rw [testBit_val s i.isLt]

/-! ### Halves and concatenations -/

theorem splitHalves_fst_toList {h : Nat} (bits : BitSeq (2 * h)) :
    (splitHalves bits).1.toList = bits.toList.take h := rfl

theorem splitHalves_snd_toList {h : Nat} (bits : BitSeq (2 * h)) :
    (splitHalves bits).2.toList = bits.toList.drop h := rfl

/-- The first sequence of a concatenation is the more significant one (rules R7, R52). -/
theorem val_seqAppend {m n : Nat} (a : BitSeq m) (b : BitSeq n) :
    val (seqAppend a b) = 2 ^ n * val a + val b := by
  rw [val, val, val, seqAppend_toList, List.reverse_append, weigh_append, List.length_reverse, Vector.length_toList,
    Nat.add_comm]

/-- Rule R52: two halves joined, as a number. -/
theorem joinHalves_toNat (x y : BitSeq 4) : (joinHalves x y).toNat = 16 * val x + val y := by
  rw [joinHalves, toInteger_toNat, val_seqAppend]
  rfl

/-- A slice of one bit is that bit. -/
theorem slice_self_eq_one_iff (v i : Nat) : slice v i i = 1 ↔ v.testBit i = true := by
  rw [slice, Nat.sub_self, Nat.zero_add, Nat.pow_one, Nat.testBit_eq_decide_div_mod_eq, decide_eq_true_iff]

/-- The two slices of a number made of two halves. -/
theorem slices_of_halves {x y : Nat} (hx : x < 16) (hy : y < 16) :
    slice (16 * x + y) 7 4 = x ∧ slice (16 * x + y) 3 0 = y := by
  simp only [slice]
  omega

end Sys2Proof.Machine

namespace Sys2Proof

open Sys2Proof.Machine

/-- Settles O7: element `j` is bit `width - 1 - j`, written as a quotient, as a slice and as a bit of the word. -/
theorem toBitsClosedForm : Obligations.ToBitsClosedForm := by
  refine ⟨fun value width j => ?_, fun n v j => ⟨?_, ?_⟩⟩
  · rw [Fin.getElem_fin, toBits_getElem, Nat.testBit_eq_decide_div_mod_eq]
  · rw [Fin.getElem_fin, toBits_getElem, Bool.eq_iff_iff, decide_eq_true_iff, slice_self_eq_one_iff]
  · rw [Fin.getElem_fin, toBits_getElem, BitVec.testBit_toNat]

/-- Every entry of the substitution table is a `U 4` (rules R46, R67). -/
theorem sBox_le : ∀ (row : Fin 4) (col : Fin 16), SBOX[row][col] ≤ 15 := by decide

/-- Settles O8: `toBits` keeps the value modulo `2^width`; the table's entries are all in range. -/
theorem toBitsTruncates : Obligations.ToBitsTruncates :=
  ⟨toBits_mod, fun xored => sBox_le (sBoxRow xored) (sBoxCol xored), toBits_mod 0x1BF 8⟩

/-- Settles O9: each of `toBits` and `val` undoes the other, so both are bijections. -/
theorem codecRoundTrip : Obligations.CodecRoundTrip := by
  have hv : ∀ (n : Nat) (v : Fin (2 ^ n)), val (toBits v n) = v := fun _ v => val_toBits_of_lt v.isLt
  refine ⟨hv, fun _ => toBits_val, fun b => BitVec.eq_of_toNat_eq ?_, fun n => ?_, fun n => ?_⟩
  · rw [toInteger_toNat, val_toBits_of_lt b.isLt]
  · exact Function.bijective_iff_has_inverse.mpr
      ⟨fun s => ⟨val s, val_lt s⟩, fun v => Fin.ext (hv n v), toBits_val⟩
  · exact Function.bijective_iff_has_inverse.mpr
      ⟨fun v => toBits v n, toBits_val, fun v => Fin.ext (hv n v)⟩

/-- Settles O11: the loop's sum over the reversed sequence, bit by bit; a value of eight elements fits a byte. -/
theorem valIsWeightedSum : Obligations.ValIsWeightedSum := by
  refine ⟨fun _ => val_eq_sum, fun s => ⟨toInteger_toNat s, Nat.le_of_lt_succ (val_lt s)⟩, ?_⟩
  decide

/-- Settles O10: the halves are the first `h` elements and the rest. -/
theorem splitHalvesParts : Obligations.SplitHalvesParts := by
  refine ⟨fun h bits => ⟨List.take_append_drop h bits.toList, fun i => ⟨?_, ?_⟩⟩, by decide, by decide⟩
  · rw [splitHalves_fst_toList, List.getElem?_take_of_lt i.isLt]
  · rw [splitHalves_snd_toList, List.getElem?_drop]

/-- Settles O12: the halves of a number's digits are its slices, and the number joined from two halves has them as its
slices. -/
theorem halvesOnIntegers : Obligations.HalvesOnIntegers := by
  refine ⟨fun b => ⟨val_blockHalves_fst b, val_blockHalves_snd b⟩, fun x y => ⟨joinHalves_toNat x y, ?_⟩,
    fun k => ?_⟩
  · rw [joinHalves_toNat]
    exact slices_of_halves (val_lt x) (val_lt y)
  · rw [splitHalves_toBits, val_toBits, val_toBits, slice, slice, Nat.pow_zero, Nat.div_one]
    exact ⟨rfl, rfl⟩

end Sys2Proof

/-! PROOFS. The key scheduler (spec/41_key_scheduler.md): the round key as a reordering of the key's bits, its inverse,
and its bits on integers. -/

namespace Sys2Proof.Machine

/-! ### Elements of a sequence as bits of its value -/

/-- Bit `i` of `val(s)` as a slice is element `n - 1 - i` of `s` (rules R9, R50). -/
theorem slice_val {n i : Nat} (s : BitSeq n) (h : i < n) : slice (val s) i i = (s[n - 1 - i]).toNat := by
  rw [slice, Nat.sub_self, Nat.zero_add, Nat.pow_one, ← Nat.toNat_testBit, testBit_val s h]

/-- The number in which a sequence is kept has that sequence as its digits (rule R51). -/
theorem toBits_ofNat_val {n : Nat} (s : BitSeq n) : toBits (BitVec.ofNat n (val s)).toNat n = s := by
  rw [BitVec.toNat_ofNat, ← toBits_mod, toBits_val]

/-- A number below 64 is the weighted sum of its six bits. -/
theorem eq_sum_slices {v : Nat} (h : v < 2 ^ 6) :
    v = 32 * slice v 5 5 + 16 * slice v 4 4 + 8 * slice v 3 3 + 4 * slice v 2 2 + 2 * slice v 1 1 + slice v 0 0 := by
  simp only [slice]
  omega

/-! ### The key schedule as one reordering, and its inverse -/

/-- Steps 1 to 3 on the bits of the key: each half moves left by one (rules R55 to R57). -/
theorem rotatedKey_of_bits {key : Key} {a b c d e f : Bool} (h : toBits key.toNat 6 = #v[a, b, c, d, e, f]) :
    rotatedKey key = #v[b, c, a, e, f, d] := by
  rw [rotatedKey, h]
  rfl

/-- Step 4: input `i` of the permutation lands at position `KEY_PERM[i] - 1` (rule R58). -/
theorem permuteToTarget_keyPerm (a b c d e f : Bool) :
    permuteToTarget keyPerm #v[a, b, c, d, e, f] = #v[c, e, f, d, a, b] := rfl

theorem defineRoundKey_of_bits {key : Key} {a b c d e f : Bool} (h : toBits key.toNat 6 = #v[a, b, c, d, e, f]) :
    defineRoundKey key = #v[a, f, d, e, b, c] := by
  rw [defineRoundKey, rotatedKey_of_bits h, permuteToTarget_keyPerm]

/-- The key whose round key is `rk`: the reordering of rule R59 undone. -/
def keyOfRoundKey (rk : BitSeq 6) : Key :=
  BitVec.ofNat 6 (val (n := 6) #v[rk[0], rk[4], rk[5], rk[2], rk[3], rk[1]])

theorem keyOfRoundKey_defineRoundKey (key : Key) : keyOfRoundKey (defineRoundKey key) = key := by
  obtain ⟨a, b, c, d, e, f, h⟩ := bitSeq6_cases (toBits key.toNat 6)
  calc keyOfRoundKey (defineRoundKey key) = BitVec.ofNat 6 (val (n := 6) #v[a, b, c, d, e, f]) := by
        rw [defineRoundKey_of_bits h]
        rfl
    _ = key := by rw [← h, val_toBits_of_lt key.isLt, BitVec.ofNat_toNat, BitVec.setWidth_eq]

theorem defineRoundKey_keyOfRoundKey (rk : BitSeq 6) : defineRoundKey (keyOfRoundKey rk) = rk := by
  obtain ⟨a, b, c, d, e, f, rfl⟩ := bitSeq6_cases rk
  exact defineRoundKey_of_bits (toBits_ofNat_val _)

theorem defineRoundKey_bijective : Function.Bijective defineRoundKey :=
  Function.bijective_iff_has_inverse.mpr
    ⟨keyOfRoundKey, keyOfRoundKey_defineRoundKey, defineRoundKey_keyOfRoundKey⟩

/-! ### The round key on integers -/

/-- Where each bit of the round key comes from (rule R60). -/
theorem slices_of_defineRoundKey (K : Key) :
    slice (val (defineRoundKey K)) 5 5 = slice K.toNat 5 5 ∧ slice (val (defineRoundKey K)) 4 4 = slice K.toNat 0 0 ∧
    slice (val (defineRoundKey K)) 3 3 = slice K.toNat 2 2 ∧ slice (val (defineRoundKey K)) 2 2 = slice K.toNat 1 1 ∧
    slice (val (defineRoundKey K)) 1 1 = slice K.toNat 4 4 ∧ slice (val (defineRoundKey K)) 0 0 = slice K.toNat 3 3 := by
  obtain ⟨a, b, c, d, e, f, h⟩ := bitSeq6_cases (toBits K.toNat 6)
  have hK : K.toNat = val (n := 6) #v[a, b, c, d, e, f] := by rw [← h, val_toBits_of_lt K.isLt]
  rw [defineRoundKey_of_bits h, hK]
  simp [slice_val]

end Sys2Proof.Machine

namespace Sys2Proof

open Sys2Proof.Machine

/-- Settles O15: the reordering of the key's bits can be undone; the corner keys and the two wrong readings are
evaluated. -/
theorem roundKeyBijection : Obligations.RoundKeyBijection :=
  ⟨defineRoundKey_bijective, by decide⟩

/-- Settles O13: the rotation of the two halves and the permutation, composed. -/
theorem roundKeySequenceForm : Obligations.RoundKeySequenceForm := by
  intro key
  obtain ⟨a, b, c, d, e, f, h⟩ := bitSeq6_cases (toBits key.toNat 6)
  rw [defineRoundKey_of_bits h, h]
  rfl

/-- Settles O14: the bits of the round key are those of the reordering, and a number of six bits is their weighted
sum. -/
theorem roundKeyIntegerForm : Obligations.RoundKeyIntegerForm := by
  refine ⟨fun K => ?_, by decide⟩
  obtain ⟨h5, h4, h3, h2, h1, h0⟩ := slices_of_defineRoundKey K
  refine ⟨h5, h4, h3, h2, h1, h0, ?_⟩
  rw [← h5, ← h4, ← h3, ← h2, ← h1, ← h0]
  exact eq_sum_slices (val_lt _)

end Sys2Proof

/-! PROOFS. The expansion stage (spec/42_expansion.md): its input read back from the middle of its output, its image,
its arithmetic on integers, and its elements after the XOR with a round key. -/

namespace Sys2Proof.Machine

/-! ### Sequences as values, and the XOR element by element -/

theorem val_pair (a b : Bool) : val (n := 2) #v[a, b] = 2 * a.toNat + b.toNat := by
  show weigh 0 [b, a] = _
  simp only [weigh]
  omega

theorem val_quad (a b c d : Bool) :
    val (n := 4) #v[a, b, c, d] = 8 * a.toNat + 4 * b.toNat + 2 * c.toNat + d.toNat := by
  show weigh 0 [d, c, b, a] = _
  simp only [weigh]
  omega

/-- Different sequences have different values (rule R51). -/
theorem val_injective {n : Nat} : Function.Injective (val (n := n)) :=
  Function.LeftInverse.injective (g := fun v => toBits v n) toBits_val

/-- `toBits` tells the values that fit its width apart (rule R51). -/
theorem toBits_injOn (n : Nat) : Set.InjOn (fun v => toBits v n) (Finset.range (2 ^ n)) :=
  Set.LeftInvOn.injOn (f₁' := val) fun _ hv => val_toBits_of_lt (Finset.mem_range.mp hv)

theorem seqXor_getElem {n j : Nat} (a b : BitSeq n) (h : j < n) : (seqXor a b)[j] = (a[j] ^^ b[j]) := by
  have e : (seqXor a b).toList[j]? = some (a[j] ^^ b[j]) := by simp [seqXor_toList, h]
  simpa [h] using e

/-- Key mixing acts on each element alone (rule R79). -/
theorem mixKey_getElem {j : Nat} (expanded roundKey : BitSeq 6) (h : j < 6) :
    (mixKey expanded roundKey)[j] = (expanded[j] ^^ roundKey[j]) := seqXor_getElem expanded roundKey h

/-! ### The expansion and its inverse on its image -/

/-- The elements at indices 1 to 4: what the expansion leaves in order (rule R63). -/
def innerBits (out : BitSeq 6) : BitSeq 4 := #v[out[1], out[2], out[3], out[4]]

/-- The input can be read back from output indices 1 to 4 (rule R65). -/
theorem innerBits_expansionBox (half : BitSeq 4) : innerBits (expansionBox half) = half := by
  obtain ⟨a, b, c, d, rfl⟩ := bitSeq4_cases half
  rfl

theorem expansionBox_injective : Function.Injective expansionBox :=
  Function.LeftInverse.injective innerBits_expansionBox

/-- The outputs are the sequences whose outer elements repeat the inner ones (rule R65). -/
theorem exists_expansionBox_eq_iff (out : BitSeq 6) :
    (∃ half, expansionBox half = out) ↔ out[0] = out[4] ∧ out[5] = out[1] := by
  constructor
  · rintro ⟨half, rfl⟩
    exact ⟨rfl, rfl⟩
  · obtain ⟨a, b, c, d, e, f, rfl⟩ := bitSeq6_cases out
    rintro ⟨rfl : a = e, rfl : f = b⟩
    exact ⟨innerBits #v[a, f, c, d, a, f], rfl⟩

/-- Sixteen halves have sixteen expansions (rule R65). -/
theorem card_expansions : ((Finset.range 16).image fun h => val (expansionBox (toBits h 4))).card = 16 := by
  have hinj : Set.InjOn (fun h => val (expansionBox (toBits h 4))) (Finset.range 16) :=
    (val_injective.comp expansionBox_injective).comp_injOn (toBits_injOn 4)
  rw [Finset.card_image_of_injOn hinj, Finset.card_range]

/-! ### The expansion on integers -/

/-- A value of six elements, the four inner ones taken together. -/
theorem val_outer_inner (out : BitSeq 6) :
    val out = 32 * out[0].toNat + 2 * val (innerBits out) + out[5].toNat := by
  obtain ⟨a, b, c, d, e, f, rfl⟩ := bitSeq6_cases out
  show weigh 0 [f, e, d, c, b, a] = 32 * a.toNat + 2 * weigh 0 [e, d, c, b] + f.toNat
  simp only [weigh]
  omega

/-- The four inner elements have the slice `[4:1]` as their value. -/
theorem val_innerBits (out : BitSeq 6) : val (innerBits out) = slice (val out) 4 1 := by
  have hlow := out[5].toNat_lt
  have hinner : val (innerBits out) < 16 := val_lt _
  rw [val_outer_inner out, slice]
  omega

/-- Where the slices of the expansion come from (rule R64). -/
theorem slices_of_expansionBox (half : BitSeq 4) :
    slice (val (expansionBox half)) 5 5 = slice (val half) 0 0 ∧
    slice (val (expansionBox half)) 4 1 = slice (val half) 3 0 ∧
    slice (val (expansionBox half)) 0 0 = slice (val half) 3 3 := by
  refine ⟨?_, ?_, ?_⟩
  · rw [slice_val _ (by decide), slice_val _ (by decide)]
    rfl
  · have hhalf : val half < 2 ^ 4 := val_lt half
    rw [← val_innerBits, innerBits_expansionBox, slice, Nat.pow_zero, Nat.div_one, Nat.mod_eq_of_lt hhalf]
  · rw [slice_val _ (by decide), slice_val _ (by decide)]
    rfl

/-- The expansion as arithmetic (rule R64): the value doubled, its lowest bit again on top and its highest below. -/
theorem val_expansionBox (half : BitSeq 4) :
    val (expansionBox half) = 32 * (val half % 2) + 2 * val half + val half / 8 := by
  obtain ⟨a, b, c, d, rfl⟩ := bitSeq4_cases half
  have hb := b.toNat_lt
  have hc := c.toNat_lt
  have hd := d.toNat_lt
  rw [val_outer_inner, innerBits_expansionBox, val_quad]
  show 32 * d.toNat + 2 * (8 * a.toNat + 4 * b.toNat + 2 * c.toNat + d.toNat) + a.toNat = _
  omega

end Sys2Proof.Machine

namespace Sys2Proof

open Sys2Proof.Machine

/-- Settles O17: the inner elements undo the expansion, its outer elements repeat them, and the XOR with a round key
leaves every element at its index, where the row and the column read it. -/
theorem expansionOutputs : Obligations.ExpansionOutputs := by
  refine ⟨expansionBox_injective, card_expansions, exists_expansionBox_eq_iff,
    fun half => ⟨(innerBits_expansionBox half).symm, rfl, rfl, rfl, rfl⟩, fun half rk => ⟨?_, ?_⟩⟩
  · simp only [sBoxRow, val_pair, mixKey_getElem]
  · simp only [sBoxCol, val_quad, mixKey_getElem]

/-- Settles O16: the arithmetic form and the slices read off it; the sixteen values are evaluated. -/
theorem expansionIntegerForm : Obligations.ExpansionIntegerForm := by
  refine ⟨fun half => ?_, by decide⟩
  obtain ⟨hhigh, hmiddle, hlow⟩ := slices_of_expansionBox half
  exact ⟨hhigh, hmiddle, hlow, val_expansionBox half⟩

end Sys2Proof

/-! PROOFS. The substitution stage (spec/43_substitution.md): row, column and output on integers, the input that reaches
a given place of the table, and how often a value occurs in a row and in the stage. -/

namespace Sys2Proof.Machine

/-! ### Row, column and output on integers -/

/-- The two outer elements are the bits 5 and 0 of the value (rule R73). -/
theorem sBoxRow_val (s : BitSeq 6) : (sBoxRow s).val = 2 * slice (val s) 5 5 + slice (val s) 0 0 := by
  rw [slice_val s (by decide), slice_val s (by decide)]
  exact val_pair s[0] s[5]

/-- The four inner elements are the slice `[4:1]` of the value (rule R73). -/
theorem sBoxCol_val (s : BitSeq 6) : (sBoxCol s).val = slice (val s) 4 1 := val_innerBits s

/-- The row of a number below 64 as arithmetic. -/
theorem sBoxRow_toBits {x : Nat} (h : x < 64) : (sBoxRow (toBits x 6)).val = 2 * (x / 32) + x % 2 := by
  rw [sBoxRow_val, val_toBits_of_lt h, slice, slice]
  omega

/-- The column of a number below 64 as arithmetic. -/
theorem sBoxCol_toBits {x : Nat} (h : x < 64) : (sBoxCol (toBits x 6)).val = x / 2 % 16 := by
  rw [sBoxCol_val, val_toBits_of_lt h]
  rfl

/-- The entry of the table as a `U 4` (rule R67). -/
def sBoxValue (row : Fin 4) (col : Fin 16) : Fin 16 := ⟨SBOX[row][col], Nat.lt_succ_of_le (sBox_le row col)⟩

/-- The entry fits four bits, so the output has it as its value (rules R70, R71). -/
theorem val_sBoxSubstitution (s : BitSeq 6) : val (sBoxSubstitution s) = sBoxValue (sBoxRow s) (sBoxCol s) :=
  val_toBits_of_lt (sBoxValue (sBoxRow s) (sBoxCol s)).isLt

/-! ### The input at a place of the table, and the flattened table -/

/-- The input that is looked up at a given row and column (rules R68, R69). -/
def sBoxInput (row : Fin 4) (col : Fin 16) : Fin 64 := ⟨32 * (row.val / 2) + 2 * col.val + row.val % 2, by omega⟩

theorem sBoxInput_val (row : Fin 4) (col : Fin 16) :
    (sBoxInput row col).val = 32 * (row.val / 2) + 2 * col.val + row.val % 2 := rfl

/-- Row and column determine the input (rule R74). -/
theorem sBoxRow_sBoxCol_eq_iff {x : Nat} (h : x < 64) (row : Fin 4) (col : Fin 16) :
    sBoxRow (toBits x 6) = row ∧ sBoxCol (toBits x 6) = col ↔ x = sBoxInput row col := by
  rw [Fin.ext_iff, Fin.ext_iff, sBoxRow_toBits h, sBoxCol_toBits h, sBoxInput_val]
  omega

/-- The flattened table holds each entry of `SBOX` at the input that reaches it (rule R73). -/
theorem S6_sBoxInput : ∀ (row : Fin 4) (col : Fin 16), (S6[sBoxInput row col]).toNat = sBoxValue row col := by decide

/-- The output is the flattened table at the input (rule R73). -/
theorem val_sBoxSubstitution_eq_S6 (x : BitVec 6) :
    val (sBoxSubstitution (toBits x.toNat 6)) = (S6[x.toFin]).toNat := by
  have hx : x.toFin = sBoxInput (sBoxRow (toBits x.toNat 6)) (sBoxCol (toBits x.toNat 6)) :=
    Fin.ext ((sBoxRow_sBoxCol_eq_iff x.isLt _ _).mp ⟨rfl, rfl⟩)
  rw [val_sBoxSubstitution, ← S6_sBoxInput]
  exact congrArg (fun i : Fin 64 => (S6[i]).toNat) hx.symm

/-! ### How often a value occurs -/

/-- No row of the table holds a value twice. -/
theorem sBoxValue_injective : ∀ row : Fin 4, Function.Injective (sBoxValue row) := by decide

/-- Each row of the table is a permutation of the values 0 to 15 (rule R74). -/
theorem existsUnique_sBox_col (row : Fin 4) (v : Fin 16) : ∃! col : Fin 16, SBOX[row][col] = v := by
  have hbij : Function.Bijective (sBoxValue row) := Finite.injective_iff_bijective.mp (sBoxValue_injective row)
  exact (existsUnique_congr fun _ => Fin.ext_iff).mp (hbij.existsUnique v)

/-- The inputs of one row with output `v`: exactly one, at the column where the row holds `v` (rule R74). -/
theorem card_inputs_of_row_of_value (v : Fin 16) (row : Fin 4) :
    ((Finset.range 64).filter fun x =>
      sBoxRow (toBits x 6) = row ∧ val (sBoxSubstitution (toBits x 6)) = v).card = 1 := by
  obtain ⟨col, hcol, honly⟩ := existsUnique_sBox_col row v
  refine Finset.card_eq_one.mpr ⟨sBoxInput row col, Finset.ext fun x => ?_⟩
  rw [Finset.mem_filter, Finset.mem_range, Finset.mem_singleton]
  constructor
  · rintro ⟨hx, rfl, hv⟩
    rw [val_sBoxSubstitution] at hv
    exact (sBoxRow_sBoxCol_eq_iff hx _ _).mp ⟨rfl, honly _ hv⟩
  · intro hx
    have hlt : x < 64 := hx ▸ (sBoxInput row col).isLt
    obtain ⟨hr, hc⟩ := (sBoxRow_sBoxCol_eq_iff hlt row col).mpr hx
    rw [val_sBoxSubstitution, hr, hc]
    exact ⟨hlt, rfl, hcol⟩

/-- The inputs with output `v`: one in each of the four rows (rule R74). -/
theorem card_inputs_of_value (v : Fin 16) :
    ((Finset.range 64).filter fun x => val (sBoxSubstitution (toBits x 6)) = v).card = 4 := by
  rw [Finset.card_eq_sum_card_fiberwise (f := fun x => sBoxRow (toBits x 6)) (t := Finset.univ)
    fun _ _ => Finset.mem_coe.mpr (Finset.mem_univ _)]
  simp only [Finset.filter_filter, And.comm (b := sBoxRow _ = _), card_inputs_of_row_of_value]
  rfl

/-- The inputs 2 and 7 have the same output, 4 (rule R74). -/
theorem sBoxSubstitution_not_injective : ¬ Function.Injective sBoxSubstitution := fun hinj =>
  have hsame : sBoxSubstitution (toBits 2 6) = sBoxSubstitution (toBits 7 6) := by decide
  absurd (hinj hsame) (by decide)

end Sys2Proof.Machine

namespace Sys2Proof

open Sys2Proof.Machine

/-- Settles O19: each row is a permutation, so a value has one input in each row and four in all; the
inputs 2 and 7 collide. -/
theorem substitutionTableProperties : Obligations.SubstitutionTableProperties :=
  ⟨existsUnique_sBox_col, card_inputs_of_value, card_inputs_of_row_of_value, sBoxSubstitution_not_injective⟩

/-- Settles O18: row, column and output on integers, at the number the sequence was made from; the listed values are
those of the table. -/
theorem substitutionFlattened : Obligations.SubstitutionFlattened := by
  refine ⟨fun x => ?_, by decide⟩
  have hx : val (toBits x.toNat 6) = x.toNat := val_toBits_of_lt x.isLt
  refine ⟨?_, ?_, val_sBoxSubstitution _, val_sBoxSubstitution_eq_S6 x, sBoxRow_toBits x.isLt⟩
  · rw [sBoxRow_val, hx]
  · rw [sBoxCol_val, hx]

end Sys2Proof

/-! PROOFS. The permutation stage (spec/44_permutation.md): what a table of target positions does to each element, the
P-box as an exchange of two pairs, and its arithmetic on integers. -/

namespace Sys2Proof.Machine

/-! ### The target-position reading of a table -/

/-- A position that no target names keeps what it held. -/
theorem placeAll_getElem?_of_notMem {n j : Nat} (ts : List Nat) (bs : List Bool) (out : BitSeq n)
    (h : j ∉ ts.map (· - 1)) : (placeAll ts bs out)[j]? = out[j]? := by
  induction ts generalizing bs out with
  | nil => rfl
  | cons t ts ih =>
    rw [List.map_cons, List.mem_cons, not_or] at h
    obtain ⟨hne, hmem⟩ := h
    cases bs with
    | nil => rfl
    | cons b bs => rw [placeAll, ih bs _ hmem, Vector.getElem?_setIfInBounds_ne (Ne.symm hne)]

/-- A position that exactly one target names receives that target's element: it is written once. -/
theorem placeAll_getElem?_target {n i t : Nat} {b : Bool} {ts : List Nat} {bs : List Bool} (out : BitSeq n)
    (hnodup : (ts.map (· - 1)).Nodup) (ht : ts[i]? = some t) (hb : bs[i]? = some b) (hlt : t - 1 < n) :
    (placeAll ts bs out)[t - 1]? = some b := by
  induction ts generalizing i bs out with
  | nil => simp at ht
  | cons u ts ih =>
    rw [List.map_cons, List.nodup_cons] at hnodup
    obtain ⟨hmem, hnodup⟩ := hnodup
    cases bs with
    | nil => simp at hb
    | cons c bs =>
      rw [placeAll]
      cases i with
      | zero =>
        obtain rfl : u = t := by simpa using ht
        obtain rfl : c = b := by simpa using hb
        rw [placeAll_getElem?_of_notMem ts bs _ hmem, Vector.getElem?_setIfInBounds_self_of_lt hlt]
      | succ i => exact ih _ hnodup (by simpa using ht) (by simpa using hb)

section

variable {n : Nat} {T : Vector Nat n} (hT : (T.toList.map (· - 1)).Perm (List.range n))

include hT

/-- The targets of a permutation table are positions of the output. -/
theorem target_lt (i : Fin n) : T[i] - 1 < n :=
  List.mem_range.mp (hT.mem_iff.mp (List.mem_map_of_mem (by simp)))

/-- The target-position reading (rules R6, R77): output `T[i] - 1` is input `i`. -/
theorem permuteToTarget_target (s : BitSeq n) (i : Fin n) :
    (permuteToTarget T s).toList[T[i] - 1]? = s.toList[i.val]? := by
  have hnodup : (T.toList.map (· - 1)).Nodup := hT.nodup_iff.mpr List.nodup_range
  rw [Vector.getElem?_toList, permuteToTarget,
    placeAll_getElem?_target _ hnodup (i := i) (b := s[i]) (by simp) (by simp) (target_lt hT i)]
  simp

/-- A table that is its own inverse has the source-position reading as well (rule R77): output `i` is input
`T[i] - 1`. -/
theorem permuteToTarget_source (hself : ∀ i : Fin n, (T[T[i] - 1]'(target_lt hT i)) - 1 = i.val) (s : BitSeq n)
    (i : Fin n) : (permuteToTarget T s).toList[i.val]? = s.toList[T[i] - 1]? := by
  have h := permuteToTarget_target hT s ⟨T[i] - 1, target_lt hT i⟩
  rwa [Fin.getElem_fin, hself i] at h

end

/-- The P-box table names each position once. -/
theorem pBox_targets : (pBox.toList.map (· - 1)).Perm (List.range 4) := by decide

/-- The key table names each position once. -/
theorem keyPerm_targets : (keyPerm.toList.map (· - 1)).Perm (List.range 6) := by decide

/-- The P-box table is its own inverse. -/
theorem pBox_self_inverse : ∀ i : Fin 4, (pBox[pBox[i] - 1]'(target_lt pBox_targets i)) - 1 = i.val := by decide

/-- On the key table the source-position reading gives another result (rule R77): input 2 goes to output 0, and the
table holds 5 there. -/
theorem permuteToTarget_keyPerm_ne_source : ∃ (s : BitSeq 6) (i : Fin 6),
    (permuteToTarget keyPerm s).toList[i.val]? ≠ s.toList[keyPerm[i] - 1]? :=
  ⟨#v[false, false, true, false, false, false], 0, by decide⟩

/-! ### The P-box as an exchange of pairs -/

/-- The four elements after the P-box (rule R75). -/
theorem pBoxPermutation_quad (a b c d : Bool) : pBoxPermutation #v[a, b, c, d] = #v[c, d, a, b] := rfl

/-- Exchanging the pairs twice restores them (rule R77). -/
theorem pBoxPermutation_involutive : Function.Involutive pBoxPermutation := by
  intro s
  obtain ⟨a, b, c, d, rfl⟩ := bitSeq4_cases s
  rw [pBoxPermutation_quad, pBoxPermutation_quad]

/-- The P-box as arithmetic (rule R78): the low pair moves up by two, the high pair down by two. -/
theorem val_pBoxPermutation (s : BitSeq 4) : val (pBoxPermutation s) = 4 * (val s % 4) + val s / 4 := by
  obtain ⟨a, b, c, d, rfl⟩ := bitSeq4_cases s
  have hc := c.toNat_lt
  have hd := d.toNat_lt
  rw [pBoxPermutation_quad, val_quad, val_quad]
  omega

/-- The two slices of a number made of two pairs of bits. -/
theorem slices_of_pairs {x y : Nat} (hx : x < 4) (hy : y < 4) :
    slice (4 * x + y) 3 2 = x ∧ slice (4 * x + y) 1 0 = y := by
  simp only [slice]
  omega

/-- Where the slices of the P-box's output come from (rule R78). -/
theorem slices_of_pBoxPermutation (s : BitSeq 4) :
    slice (val (pBoxPermutation s)) 3 2 = slice (val s) 1 0 ∧
    slice (val (pBoxPermutation s)) 1 0 = slice (val s) 3 2 := by
  have hdiv : val s / 4 < 4 := Nat.div_lt_of_lt_mul (val_lt s)
  have hmod : val s % 4 < 4 := Nat.mod_lt _ (by decide)
  obtain ⟨hhigh, hlow⟩ := slices_of_pairs hdiv hmod
  obtain ⟨hhigh', hlow'⟩ := slices_of_pairs hmod hdiv
  rw [Nat.div_add_mod] at hhigh hlow
  rw [val_pBoxPermutation]
  exact ⟨hhigh'.trans hlow.symm, hlow'.trans hhigh.symm⟩

end Sys2Proof.Machine

namespace Sys2Proof

open Sys2Proof.Machine

/-- Settles O21: the P-box exchanges two pairs, so it undoes itself; both tables name each position once, which gives
the target-position reading, and the P-box table is its own inverse, which gives the other one. -/
theorem pBoxInvolution : Obligations.PBoxInvolution :=
  ⟨pBoxPermutation_involutive, pBoxPermutation_involutive.bijective,
    fun s i => ⟨permuteToTarget_target pBox_targets s i, permuteToTarget_source pBox_targets pBox_self_inverse s i⟩,
    permuteToTarget_target keyPerm_targets, permuteToTarget_keyPerm_ne_source⟩

/-- Settles O20: the sequence is its four elements, and the table exchanges their pairs. -/
theorem pBoxSequenceForm : Obligations.PBoxSequenceForm := by
  intro s
  obtain ⟨a, b, c, d, rfl⟩ := bitSeq4_cases s
  exact pBoxPermutation_quad a b c d

/-- Settles O22: the arithmetic form, and its two pairs of bits as slices; the sixteen values are evaluated. -/
theorem pBoxIntegerForm : Obligations.PBoxIntegerForm := by
  refine ⟨fun sbox => ?_, by decide⟩
  obtain ⟨hhigh, hlow⟩ := slices_of_pBoxPermutation sbox
  exact ⟨hhigh, hlow, val_pBoxPermutation sbox⟩

end Sys2Proof

/-! PROOFS. The round and the two operations (spec/45_feistel_round.md): the XOR of sequences on integers, blocks as
two halves, the integer forms of rule R92, and the fixed points of rule R91. -/

namespace Sys2Proof.Machine

/-! ### The two combiners -/

/-- The XOR of two sequences is the XOR of their values (rules R79, R80). -/
theorem val_seqXor {n : Nat} (a b : BitSeq n) : val (seqXor a b) = val a ^^^ val b := by
  refine Nat.eq_of_testBit_eq fun i => ?_
  rw [Nat.testBit_xor]
  rcases Nat.lt_or_ge i n with hi | hi
  · rw [testBit_val _ hi, testBit_val _ hi, testBit_val _ hi, seqXor_getElem]
  · have hbeyond : ∀ s : BitSeq n, (val s).testBit i = false := fun s =>
      Nat.testBit_lt_two_pow ((val_lt s).trans_le (Nat.pow_le_pow_right (by decide) hi))
    rw [hbeyond, hbeyond, hbeyond, Bool.xor_false]

/-- A second XOR with the same sequence takes the first one back (rule R80). -/
theorem seqXor_seqXor_cancel {n : Nat} (a b : BitSeq n) : seqXor (seqXor a b) b = a :=
  Vector.ext fun j hj => by rw [seqXor_getElem, seqXor_getElem, Bool.xor_assoc, Bool.xor_self, Bool.xor_false]

/-- The same from the other side: the combiner does not see the order of its operands. -/
theorem seqXor_cancel_left {n : Nat} (a b : BitSeq n) : seqXor a (seqXor a b) = b :=
  Vector.ext fun j hj => by rw [seqXor_getElem, seqXor_getElem, ← Bool.xor_assoc, Bool.xor_self, Bool.false_xor]

/-- What is mixed can be moved to the other side. -/
theorem seqXor_eq_iff {n : Nat} (a b c : BitSeq n) : seqXor a b = c ↔ a = seqXor c b := by
  constructor
  · rintro rfl
    exact (seqXor_seqXor_cancel a b).symm
  · rintro rfl
    exact seqXor_seqXor_cancel c b

theorem seqXor_self {n : Nat} (a : BitSeq n) : seqXor a a = Vector.replicate n false :=
  Vector.ext fun j hj => by rw [seqXor_getElem, Bool.xor_self, Vector.getElem_replicate]

/-- Mixing leaves a half as it is only when zeros are mixed in. -/
theorem mixHalf_eq_right_iff (perm left : BitSeq 4) :
    mixHalf perm left = left ↔ perm = #v[false, false, false, false] := by
  rw [mixHalf, seqXor_eq_iff, seqXor_self]
  rfl

/-- Key mixing of an expansion with a round key, in the bits of the half and of the key (rule R79). -/
theorem mixKey_expansionBox_defineRoundKey (h : BitSeq 4) (key : Key) :
    let k := toBits key.toNat 6
    mixKey (expansionBox h) (defineRoundKey key) =
      #v[h[3] ^^ k[0], h[0] ^^ k[5], h[1] ^^ k[3], h[2] ^^ k[4], h[3] ^^ k[1], h[0] ^^ k[2]] := by
  obtain ⟨a, b, c, d, e, f, hk⟩ := bitSeq6_cases (toBits key.toNat 6)
  rw [defineRoundKey_of_bits hk, hk]
  rfl

/-! ### A block as its two halves -/

/-- The two halves of a block, joined again, are the block (rules R47, R52). -/
theorem joinHalves_blockHalves (b : Block) : joinHalves (blockHalves b).1 (blockHalves b).2 = b := by
  have hb : b.toNat < 256 := b.isLt
  refine BitVec.eq_of_toNat_eq ?_
  rw [joinHalves_toNat, val_blockHalves_fst, val_blockHalves_snd, slice, slice]
  omega

/-- Two halves are the halves of the block they are joined to (rules R47, R52). -/
theorem blockHalves_joinHalves (x y : BitSeq 4) : blockHalves (joinHalves x y) = (x, y) := by
  obtain ⟨hleft, hright⟩ := slices_of_halves (val_lt x) (val_lt y)
  refine Prod.ext (val_injective ?_) (val_injective ?_)
  · rw [val_blockHalves_fst, joinHalves_toNat, hleft]
  · rw [val_blockHalves_snd, joinHalves_toNat, hright]

theorem block_cases (b : Block) : ∃ x y, b = joinHalves x y := ⟨_, _, (joinHalves_blockHalves b).symm⟩

theorem joinHalves_inj {x y x' y' : BitSeq 4} : joinHalves x y = joinHalves x' y' ↔ x = x' ∧ y = y' := by
  refine ⟨fun h => ?_, fun ⟨hx, hy⟩ => by rw [hx, hy]⟩
  have e := congrArg blockHalves h
  rw [blockHalves_joinHalves, blockHalves_joinHalves] at e
  exact Prod.mk.inj e

/-- `swap` on halves (rule R85). -/
theorem swapHalves_joinHalves (x y : BitSeq 4) : swapHalves (joinHalves x y) = joinHalves y x := by
  obtain ⟨hleft, hright⟩ := slices_of_halves (val_lt x) (val_lt y)
  rw [swapHalves, joinHalves_toNat, hleft, hright, ← joinHalves_toNat, BitVec.ofNat_toNat, BitVec.setWidth_eq]

/-- `encrypt` on halves (rules R82, R83). -/
theorem encrypt_joinHalves (x y : BitSeq 4) (k : Key) :
    encrypt (joinHalves x y) k = joinHalves y (mixHalf (roundF y (defineRoundKey k)) x) := by
  rw [encrypt, blockHalves_joinHalves]
  rfl

/-- `decrypt` on halves (rules R82, R84). -/
theorem decrypt_joinHalves (x y : BitSeq 4) (k : Key) :
    decrypt (joinHalves x y) k = joinHalves (mixHalf (roundF x (defineRoundKey k)) y) x := by
  rw [decrypt, blockHalves_joinHalves]
  rfl

theorem decrypt_encrypt (p : Block) (k : Key) : decrypt (encrypt p k) k = p := by
  obtain ⟨x, y, rfl⟩ := block_cases p
  rw [encrypt_joinHalves, decrypt_joinHalves, mixHalf, mixHalf, seqXor_cancel_left]

theorem encrypt_decrypt (c : Block) (k : Key) : encrypt (decrypt c k) k = c := by
  obtain ⟨x, y, rfl⟩ := block_cases c
  rw [decrypt_joinHalves, encrypt_joinHalves, mixHalf, mixHalf, seqXor_cancel_left]

end Sys2Proof.Machine

namespace Sys2Proof

open Sys2Proof.Machine

/-- Settles O23: the XOR acts on each element alone, so it is the XOR of the values and takes itself back; the two
examples are evaluated. -/
theorem combinersAreXor : Obligations.CombinersAreXor :=
  ⟨fun expanded roundKey => ⟨fun i => seqXor_getElem expanded roundKey i.isLt, val_seqXor expanded roundKey⟩,
    mixKey_expansionBox_defineRoundKey, by decide,
    fun perm left => ⟨fun i => seqXor_getElem perm left i.isLt, val_seqXor perm left, seqXor_seqXor_cancel perm left⟩,
    by decide⟩

/-- Settles O25: on halves, both sides join the mixed half and the one that passed through `F`. -/
theorem decryptIsSwappedEncrypt : Obligations.DecryptIsSwappedEncrypt := by
  intro c k
  obtain ⟨x, y, rfl⟩ := block_cases c
  rw [swapHalves_joinHalves, encrypt_joinHalves, swapHalves_joinHalves, decrypt_joinHalves]

/-- Settles O26: the half that passes through `F` is carried, so the other operation mixes in the same half again. -/
theorem encryptDecryptInverse : Obligations.EncryptDecryptInverse :=
  ⟨fun p k => ⟨decrypt_encrypt p k, encrypt_decrypt p k⟩, fun k =>
    ⟨Function.bijective_iff_has_inverse.mpr
      ⟨(decrypt · k), (decrypt_encrypt · k), (encrypt_decrypt · k)⟩,
    Function.bijective_iff_has_inverse.mpr
      ⟨(encrypt · k), (encrypt_decrypt · k), (decrypt_encrypt · k)⟩⟩⟩

end Sys2Proof

namespace Sys2Proof.Machine

/-! ### The integer form of each stage -/

/-- A sequence as the word it stands for: the `U n` of rule R51. -/
def toWord {n : Nat} (s : BitSeq n) : BitVec n := BitVec.ofNat n (val s)

theorem toWord_toNat {n : Nat} (s : BitSeq n) : (toWord s).toNat = val s := Nat.mod_eq_of_lt (val_lt s)

/-- The digits of the word are the sequence (rule R51). -/
theorem toBits_toWord {n : Nat} (s : BitSeq n) : toBits (toWord s).toNat n = s := toBits_ofNat_val s

theorem toWord_injective {n : Nat} : Function.Injective (toWord (n := n)) :=
  Function.LeftInverse.injective (g := fun w : BitVec n => toBits w.toNat n) toBits_toWord

theorem toWord_seqXor {n : Nat} (a b : BitSeq n) : toWord (seqXor a b) = toWord a ^^^ toWord b :=
  BitVec.eq_of_toNat_eq (by rw [BitVec.toNat_xor, toWord_toNat, toWord_toNat, toWord_toNat, val_seqXor])

/-- The table of rule R64 lists the expansion. -/
theorem E6_getElem : ∀ i : Fin 16, E6[i] = toWord (expansionBox (toBits i 4)) := by decide

/-- The table of rule R78 lists the P-box. -/
theorem P4_getElem : ∀ i : Fin 16, P4[i] = toWord (pBoxPermutation (toBits i 4)) := by decide

theorem E6_toWord (r : BitSeq 4) : E6[(toWord r).toFin] = toWord (expansionBox r) := by
  rw [E6_getElem, BitVec.val_toFin, toBits_toWord]

theorem P4_toWord (s : BitSeq 4) : P4[(toWord s).toFin] = toWord (pBoxPermutation s) := by
  rw [P4_getElem, BitVec.val_toFin, toBits_toWord]

theorem S6_toWord (s : BitSeq 6) : S6[(toWord s).toFin] = toWord (sBoxSubstitution s) := by
  refine BitVec.eq_of_toNat_eq ?_
  rw [← val_sBoxSubstitution_eq_S6, toBits_toWord, toWord_toNat]

/-- The three tables in a row are the round function on words (rules R81, R92). -/
theorem intF_toWord (r : BitSeq 4) (rk : BitSeq 6) : intF (toWord r) (toWord rk) = toWord (roundF r rk) := by
  simp only [intF, E6_toWord, ← toWord_seqXor, S6_toWord, P4_toWord]
  rfl

/-- The round key of rule R60 is that of rule R54 as a word. -/
theorem intRoundKey_eq_toWord (K : Key) : intRoundKey K = toWord (defineRoundKey K) := by
  obtain ⟨h5, h4, h3, h2, h1, h0⟩ := slices_of_defineRoundKey K
  rw [intRoundKey, toWord, Nat.one_mul, ← h5, ← h4, ← h3, ← h2, ← h1, ← h0, ← eq_sum_slices (val_lt _)]

theorem intLeft_eq_toWord (b : Block) : intLeft b = toWord (blockHalves b).1 := by
  rw [intLeft, toWord, val_blockHalves_fst]

theorem intRight_eq_toWord (b : Block) : intRight b = toWord (blockHalves b).2 := by
  rw [intRight, toWord, val_blockHalves_snd]

theorem intLeft_toNat (b : Block) : (intLeft b).toNat = slice b.toNat 7 4 := by
  rw [intLeft_eq_toWord, toWord_toNat, val_blockHalves_fst]

theorem intRight_toNat (b : Block) : (intRight b).toNat = slice b.toNat 3 0 := by
  rw [intRight_eq_toWord, toWord_toNat, val_blockHalves_snd]

/-- The output of `encrypt` as a number (rules R83, R92). -/
theorem encrypt_toNat (p : Block) (k : Key) : (encrypt p k).toNat =
    16 * (intRight p).toNat + (intF (intRight p) (intRoundKey k) ^^^ intLeft p).toNat := by
  rw [intRight_eq_toWord, intRoundKey_eq_toWord, intF_toWord, intLeft_eq_toWord, ← toWord_seqXor, toWord_toNat,
    toWord_toNat]
  exact joinHalves_toNat _ _

/-- The output of `decrypt` as a number (rules R84, R92). -/
theorem decrypt_toNat (c : Block) (k : Key) : (decrypt c k).toNat =
    16 * (intF (intLeft c) (intRoundKey k) ^^^ intRight c).toNat + (intLeft c).toNat := by
  rw [intRight_eq_toWord, intRoundKey_eq_toWord, intLeft_eq_toWord, intF_toWord, ← toWord_seqXor, toWord_toNat,
    toWord_toNat]
  exact joinHalves_toNat _ _

end Sys2Proof.Machine

namespace Sys2Proof

open Sys2Proof.Machine

/-- Settles O24: each stage of the BitSequence form is its table on words, so the two outputs are one number. -/
theorem integerFormsAgree : Obligations.IntegerFormsAgree := by
  refine ⟨fun p k => ⟨?_, ?_⟩, fun c k => ⟨?_, ?_⟩⟩
  · rw [intEncrypt, ← encrypt_toNat, BitVec.ofNat_toNat, BitVec.setWidth_eq]
  · rw [encrypt_toNat, BitVec.toNat_xor, intLeft_toNat, intRight_toNat]
  · rw [intDecrypt, ← decrypt_toNat, BitVec.ofNat_toNat, BitVec.setWidth_eq]
  · rw [decrypt_toNat, BitVec.toNat_xor, intLeft_toNat, intRight_toNat]

end Sys2Proof

namespace Sys2Proof.Machine

/-! ### When a block is a fixed point -/

/-- Equal halves that `F` gives zeros for are a fixed point, and there is no other (rule R91). -/
theorem encrypt_joinHalves_eq_self_iff (x y : BitSeq 4) (k : Key) :
    encrypt (joinHalves x y) k = joinHalves x y ↔
    x = y ∧ roundF y (defineRoundKey k) = #v[false, false, false, false] := by
  rw [encrypt_joinHalves, joinHalves_inj, eq_comm (a := y)]
  refine and_congr_right ?_
  rintro rfl
  exact mixHalf_eq_right_iff _ x

theorem encrypt_eq_self_iff (p : Block) (k : Key) : encrypt p k = p ↔
    (blockHalves p).1 = (blockHalves p).2 ∧
    roundF (blockHalves p).2 (defineRoundKey k) = #v[false, false, false, false] := by
  obtain ⟨x, y, rfl⟩ := block_cases p
  rw [encrypt_joinHalves_eq_self_iff, blockHalves_joinHalves]

/-- A fixed point of `encrypt` is one of `decrypt`, which takes `encrypt` back. -/
theorem decrypt_eq_self_of_encrypt_eq_self {p : Block} {k : Key} (h : encrypt p k = p) : decrypt p k = p := by
  have hback := decrypt_encrypt p k
  rwa [h] at hback

/-- The inputs at which the substitution gives zeros, one in each row of the table (rule R74). -/
def sBoxZeros : Finset (BitSeq 6) := {toBits 28 6, toBits 1 6, toBits 62 6, toBits 59 6}

theorem S6_eq_zero_iff : ∀ x : Fin 64, S6[x] = 0#4 ↔ toBits x 6 ∈ sBoxZeros := by decide

theorem sBoxSubstitution_eq_zeros_iff (s : BitSeq 6) :
    sBoxSubstitution s = #v[false, false, false, false] ↔ s ∈ sBoxZeros := by
  rw [← toWord_injective.eq_iff, ← S6_toWord]
  exact (S6_eq_zero_iff (toWord s).toFin).trans (by rw [BitVec.val_toFin, toBits_toWord])

/-- `F` gives zeros where the substitution does: the P-box only moves elements. -/
theorem roundF_eq_zeros_iff (r : BitSeq 4) (rk : BitSeq 6) :
    roundF r rk = #v[false, false, false, false] ↔ mixKey (expansionBox r) rk ∈ sBoxZeros := by
  rw [← sBoxSubstitution_eq_zeros_iff]
  exact pBoxPermutation_involutive.injective.eq_iff (b := #v[false, false, false, false])

/-! ### How many fixed points a key has -/

/-- Whether the elements at indices 0 and 4 differ, and those at 5 and 1: the expansions are the sequences in which
neither pair does (rule R65). -/
def outerParity (s : BitSeq 6) : Bool × Bool := (s[0] ^^ s[4], s[5] ^^ s[1])

/-- Rule R65 with the two differences as a pair. -/
theorem exists_expansionBox_eq_iff_outerParity (s : BitSeq 6) :
    (∃ r, expansionBox r = s) ↔ outerParity s = (false, false) := by
  rw [exists_expansionBox_eq_iff, outerParity, Prod.mk.injEq]
  exact (and_congr bne_eq_false_iff_eq bne_eq_false_iff_eq).symm

theorem outerParity_mixKey (z rk : BitSeq 6) : outerParity (mixKey z rk) =
    ((outerParity z).1 ^^ (outerParity rk).1, (outerParity z).2 ^^ (outerParity rk).2) := by
  simp only [outerParity, mixKey_getElem, Bool.xor_assoc, Bool.xor_left_comm]

/-- Two sequences with the same parities differ by an expansion, and only those do. -/
theorem exists_expansionBox_eq_mixKey_iff (z rk : BitSeq 6) :
    (∃ r, expansionBox r = mixKey z rk) ↔ outerParity z = outerParity rk := by
  rw [exists_expansionBox_eq_iff_outerParity, outerParity_mixKey, Prod.ext_iff, Prod.ext_iff]
  exact and_congr bne_eq_false_iff_eq bne_eq_false_iff_eq

/-- Key mixing leaves the parities of an expansion at those of the round key. -/
theorem outerParity_mixKey_expansionBox (r : BitSeq 4) (rk : BitSeq 6) :
    outerParity (mixKey (expansionBox r) rk) = outerParity rk := by
  rw [← exists_expansionBox_eq_mixKey_iff, mixKey, mixKey, seqXor_seqXor_cancel]
  exact ⟨r, rfl⟩

/-- The half whose expansion, mixed with `rk`, is `z`, where there is one: key mixing and expansion undone. -/
def halfBefore (rk z : BitSeq 6) : BitSeq 4 := innerBits (mixKey z rk)

theorem halfBefore_mixKey_expansionBox (r : BitSeq 4) (rk : BitSeq 6) :
    halfBefore rk (mixKey (expansionBox r) rk) = r := by
  rw [halfBefore, mixKey, mixKey, seqXor_seqXor_cancel, innerBits_expansionBox]

theorem mixKey_expansionBox_halfBefore {z rk : BitSeq 6} (h : outerParity z = outerParity rk) :
    mixKey (expansionBox (halfBefore rk z)) rk = z := by
  obtain ⟨r, hr⟩ := (exists_expansionBox_eq_mixKey_iff z rk).mpr h
  rw [halfBefore, ← hr, innerBits_expansionBox, hr, mixKey, mixKey, seqXor_seqXor_cancel]

/-- What enters the substitution when a block is encrypted (rules R79, R81). -/
def substitutionInput (k : Key) (p : Block) : BitSeq 6 :=
  mixKey (expansionBox (blockHalves p).2) (defineRoundKey k)

/-- The block with twice the half that gives `z` at the substitution. -/
def fixedBlock (k : Key) (z : BitSeq 6) : Block :=
  joinHalves (halfBefore (defineRoundKey k) z) (halfBefore (defineRoundKey k) z)

theorem substitutionInput_fixedBlock {k : Key} {z : BitSeq 6} (h : outerParity z = outerParity (defineRoundKey k)) :
    substitutionInput k (fixedBlock k z) = z := by
  rw [substitutionInput, fixedBlock, blockHalves_joinHalves, mixKey_expansionBox_halfBefore h]

theorem fixedBlock_substitutionInput {k : Key} {p : Block} (h : (blockHalves p).1 = (blockHalves p).2) :
    fixedBlock k (substitutionInput k p) = p := by
  rw [fixedBlock, substitutionInput, halfBefore_mixKey_expansionBox]
  nth_rw 1 [← h]
  exact joinHalves_blockHalves p

theorem encrypt_eq_self_iff_substitutionInput (p : Block) (k : Key) : encrypt p k = p ↔
    (blockHalves p).1 = (blockHalves p).2 ∧ substitutionInput k p ∈ sBoxZeros := by
  rw [encrypt_eq_self_iff, roundF_eq_zeros_iff, substitutionInput]

/-- A zero of the substitution with the parities of the round key is reached from a fixed point. -/
theorem encrypt_fixedBlock {k : Key} {z : BitSeq 6} (hzero : z ∈ sBoxZeros)
    (hparity : outerParity z = outerParity (defineRoundKey k)) : encrypt (fixedBlock k z) k = fixedBlock k z := by
  rw [encrypt_eq_self_iff_substitutionInput, substitutionInput_fixedBlock hparity, fixedBlock, blockHalves_joinHalves]
  exact ⟨rfl, hzero⟩

/-- The fixed points of a key are as many as the zeros of the substitution with the parities of its round key. -/
theorem card_fixedPoints_eq_card_zeros (k : Key) :
    ((Finset.range 256).filter fun p => encrypt (BitVec.ofNat 8 p) k = BitVec.ofNat 8 p).card =
      (sBoxZeros.filter fun z => outerParity z = outerParity (defineRoundKey k)).card := by
  refine Finset.card_nbij' (fun p => substitutionInput k (BitVec.ofNat 8 p)) (fun z => (fixedBlock k z).toNat)
    (fun p hp => ?_) (fun z hz => ?_) (fun p hp => ?_) (fun z hz => ?_)
  · obtain ⟨-, hfix⟩ := Finset.mem_filter.mp hp
    obtain ⟨-, hzero⟩ := (encrypt_eq_self_iff_substitutionInput _ k).mp hfix
    exact Finset.mem_filter.mpr ⟨hzero, outerParity_mixKey_expansionBox _ _⟩
  · obtain ⟨hzero, hparity⟩ := Finset.mem_filter.mp hz
    refine Finset.mem_filter.mpr ⟨Finset.mem_range.mpr (BitVec.isLt _), ?_⟩
    rw [BitVec.ofNat_toNat, BitVec.setWidth_eq, encrypt_fixedBlock hzero hparity]
  · obtain ⟨hlt, hfix⟩ := Finset.mem_filter.mp hp
    obtain ⟨hhalves, -⟩ := (encrypt_eq_self_iff_substitutionInput _ k).mp hfix
    simp only [fixedBlock_substitutionInput hhalves]
    exact Nat.mod_eq_of_lt (Finset.mem_range.mp hlt)
  · obtain ⟨-, hparity⟩ := Finset.mem_filter.mp hz
    simp only [BitVec.ofNat_toNat, BitVec.setWidth_eq, substitutionInput_fixedBlock hparity]

/-- How many zeros of the substitution have given parities. -/
def zerosWithParity : Bool × Bool → Nat
  | (true, _) => 0
  | (false, true) => 3
  | (false, false) => 1

theorem card_zeros_of_outerParity : ∀ q : Bool × Bool,
    (sBoxZeros.filter fun z => outerParity z = q).card = zerosWithParity q := by decide

theorem card_fixedPoints_of_key (k : Key) :
    ((Finset.range 256).filter fun p => encrypt (BitVec.ofNat 8 p) k = BitVec.ofNat 8 p).card =
      zerosWithParity (outerParity (defineRoundKey k)) := by
  rw [card_fixedPoints_eq_card_zeros, card_zeros_of_outerParity]

/-- Two bits differ when exactly one of them is 1. -/
theorem xor_eq_true_iff_toNat_add : ∀ a b : Bool, (a ^^ b) = true ↔ a.toNat + b.toNat = 1 := by decide

/-- The first parity of a round key compares the two highest bits of the key (rule R59): they differ from 16 to 47. -/
theorem outerParity_defineRoundKey_fst (k : Key) :
    (outerParity (defineRoundKey k)).1 = true ↔ 16 ≤ k.toNat ∧ k.toNat ≤ 47 := by
  obtain ⟨a, b, c, d, e, f, h⟩ := bitSeq6_cases (toBits k.toNat 6)
  have hk : k.toNat = 32 * a.toNat + 2 * (8 * b.toNat + 4 * c.toNat + 2 * d.toNat + e.toNat) + f.toNat := by
    rw [← val_quad, ← val_toBits_of_lt k.isLt, h]
    exact val_outer_inner _
  have ha := a.toNat_lt
  have hb := b.toNat_lt
  have hc := c.toNat_lt
  have hd := d.toNat_lt
  have he := e.toNat_lt
  have hf := f.toNat_lt
  rw [defineRoundKey_of_bits h]
  show (a ^^ b) = true ↔ _
  rw [xor_eq_true_iff_toNat_add]
  omega

/-- The pairs of block and key that are fixed, counted key by key: 32 keys have none, 16 have one and 16 three. -/
theorem card_fixedPairs : ((Finset.range 256 ×ˢ Finset.range 64).filter fun x =>
    encrypt (BitVec.ofNat 8 x.1) (BitVec.ofNat 6 x.2) = BitVec.ofNat 8 x.1).card = 64 := by
  calc _ = ∑ k ∈ Finset.range 64, zerosWithParity (outerParity (defineRoundKey (BitVec.ofNat 6 k))) := by
        rw [Finset.card_filter, Finset.sum_product_right]
        simp only [← Finset.card_filter, card_fixedPoints_of_key]
    _ = 64 := by decide

end Sys2Proof.Machine

namespace Sys2Proof

open Sys2Proof.Machine

/-- Settles O28: a fixed point is a half twice that `F` gives zeros for; the zeros of the substitution that a key
reaches are counted by the parities of its round key; the scenario's pair is evaluated. -/
theorem fixedPointsOfARound : Obligations.FixedPointsOfARound := by
  refine ⟨encrypt_eq_self_iff, fun p k => decrypt_eq_self_of_encrypt_eq_self, card_fixedPairs, fun k => ?_, by decide⟩
  simp only [card_fixedPoints_of_key, ← outerParity_defineRoundKey_fst]
  rcases outerParity (defineRoundKey k) with ⟨_ | _, _ | _⟩ <;> decide

end Sys2Proof

/-! PROOFS. The cascade (spec/46_cascade.md): under one key, the three operations are taken back from the inside out by
three uses of the inverse laws of the single operation. -/

namespace Sys2Proof.Machine

/-- The innermost pair is a decryption of an encryption, and meets the next such pair once it is gone. -/
theorem decrypt3_encrypt3 (p : Block) (k : Key) : decrypt3 (encrypt3 p k) k = p := by
  rw [decrypt3, encrypt3, decrypt_encrypt, decrypt_encrypt, decrypt_encrypt]

theorem encrypt3_decrypt3 (c : Block) (k : Key) : encrypt3 (decrypt3 c k) k = c := by
  rw [encrypt3, decrypt3, encrypt_decrypt, encrypt_decrypt, encrypt_decrypt]

end Sys2Proof.Machine

namespace Sys2Proof

open Sys2Proof.Machine

/-- Settles O50: the inverse laws of the cascade, one for each order. -/
theorem tripleInverse : Obligations.TripleInverse :=
  fun p k => ⟨decrypt3_encrypt3 p k, encrypt3_decrypt3 p k⟩

end Sys2Proof

/-! PROOFS. Reset and hazards (spec/70_reset_and_hazards.md): a reset of any state is the one update `applyReset`,
which leaves the engine ready; a command presented to a ready engine, after a reset or before one, is the command its
word was made from. -/

namespace Sys2Proof

/-! ### A command word and its fields -/

@[simp] theorem opField_joinFields (op : BitVec 1) (key : Key) (block : Block) :
    opField (joinFields op key block) = op := by
  have hk : key.toNat < 64 := key.isLt
  have hb : block.toNat < 256 := block.isLt
  exact BitVec.eq_of_toNat_eq (by rw [opField_toNat, joinFields_toNat]; omega)

@[simp] theorem keyField_joinFields (op : BitVec 1) (key : Key) (block : Block) :
    keyField (joinFields op key block) = key := by
  have hk : key.toNat < 64 := key.isLt
  have hb : block.toNat < 256 := block.isLt
  exact BitVec.eq_of_toNat_eq (by rw [keyField_toNat, joinFields_toNat]; omega)

@[simp] theorem blockField_joinFields (op : BitVec 1) (key : Key) (block : Block) :
    blockField (joinFields op key block) = block := by
  have hb : block.toNat < 256 := block.isLt
  exact BitVec.eq_of_toNat_eq (by rw [blockField_toNat, joinFields_toNat]; omega)

@[simp] theorem decodeFields_of_command (i : Instr) : decodeFields (opOf i) (keyOf i) (blockOf i) = i := by
  cases i <;> rfl

@[simp] theorem decodeWord_encode (i : Instr) : decodeWord (encode i) = i := by
  simp [decodeWord, encode]

end Sys2Proof

namespace Sys2Proof.Machine

/-- The ports that present the word of a command present that command. -/
@[simp] theorem portsCommand_presenting_encode (i : Instr) : portsCommand (presenting (encode i)) = i := by
  have hword : portsWord (presenting (encode i)) = encode i := by simp [portsWord, presenting, encode]
  rw [portsCommand, hword, decodeWord_encode]

/-! ### The steps in which reset is raised or a ready engine meets a command -/

/-- Reset wins over everything else on the ports (rules R108, R110). -/
theorem onPorts_of_rst {p : Ports} (hp : p.rst = true) (whole : Bool) (rest : List Event) (s : State) :
    onPorts whole p rest s = .next (applyReset (setAgenda rest s)) := by
  simp [onPorts, hp]

theorem step_of_eventResets {s : State} {e : Event} {rest : List Event} (ha : s.agenda = e :: rest)
    (he : eventResets e = true) : step s = .next (applyReset (setAgenda rest s)) := by
  cases e with
  | instant p => rw [step_of_instant ha, onPorts_of_rst he]
  | acceptance p => rw [step_of_acceptance ha, onPorts_of_rst he]
  | completion => cases he
  | useDout => cases he

/-- What a ready engine does with a command presented to it: it is run whole, or only accepted. -/
theorem onPorts_presenting_encode {s : State} (hs : s.inFlight = none) (whole : Bool) (i : Instr) (rest : List Event) :
    onPorts whole (presenting (encode i)) rest s =
      .next (if whole then complete (resultOf i) (setAgenda rest s) else accept i (setAgenda rest s)) := by
  have hrst : (presenting (encode i)).rst = false := rfl
  have hvalid : (presenting (encode i)).cmdValid = true := rfl
  cases whole <;> simp [onPorts, hrst, hvalid, cmdReady_eq_true.mpr hs, exec_eq_complete]

theorem step_of_presents {s : State} {i : Instr} {rest : List Event} (ha : s.agenda = presents i :: rest)
    (hs : s.inFlight = none) : step s = .next (complete (resultOf i) (setAgenda rest s)) := by
  rw [step_of_instant ha, onPorts_presenting_encode hs, if_pos rfl]

theorem step_of_presentsOpen {s : State} {i : Instr} {rest : List Event} (ha : s.agenda = presentsOpen i :: rest)
    (hs : s.inFlight = none) : step s = .next (accept i (setAgenda rest s)) := by
  rw [step_of_acceptance ha, onPorts_presenting_encode hs, if_neg Bool.false_ne_true]

theorem run_two {s t u : State} (hst : step s = .next t) (htu : step t = .next u) : core.run 2 s = .next u := by
  rw [run_succ hst, run_succ htu, run_zero]

/-! ### The output ports after a reset and after a completion -/

@[simp] theorem rspData_applyReset (s : State) : rspData (applyReset s) = none := rspData_of_not_done rfl

@[simp] theorem cmdReady_applyReset (s : State) : cmdReady (applyReset s) = true := cmdReady_eq_true.mpr rfl

@[simp] theorem rspData_complete (result : BitVec 8) (s : State) : rspData (complete result s) = some result :=
  rspData_of_done rfl

end Sys2Proof.Machine

namespace Sys2Proof

open Sys2Proof.Machine

/-- Settles O36: on either kind of port event the step is `applyReset`, which leaves only the events to come. -/
theorem resetEffect : Obligations.ResetEffect := by
  intro s p rest e hp he
  have hreset : eventResets e = true := by
    obtain rfl | rfl := he <;> exact hp
  exact ⟨_, step_of_eventResets rfl hreset, rfl, rspData_applyReset _, cmdReady_applyReset _, rfl, rfl⟩

/-- Settles O37: the reset leaves a ready engine, and a ready engine completes the command it is presented. -/
theorem firstCommandAfterReset : Obligations.FirstCommandAfterReset := by
  intro s p i rest hp
  have hreset := step_of_eventResets (s := setAgenda (.instant p :: presents i :: rest) s) rfl hp
  have hcommand := step_of_presents (s := applyReset (setAgenda (presents i :: rest) s)) rfl rfl
  exact ⟨_, run_two hreset hcommand, rspData_complete _ _, rfl⟩

/-- Settles O40: the reset of the accepted command and the reset alone are both `applyReset`, of two states with
the same events to come; what else of them the statement speaks of, it overwrites. -/
theorem abandonedCommand : Obligations.AbandonedCommand := by
  intro s i p rest hp
  have haccept := step_of_presentsOpen (s := setAgenda (presentsOpen i :: .instant p :: rest) (setInFlight none s)) rfl rfl
  have habandon := step_of_eventResets (s := accept i (setAgenda (.instant p :: rest) (setInFlight none s))) rfl hp
  have halone := step_of_eventResets (s := setAgenda (.instant p :: rest) s) rfl hp
  exact ⟨_, _, run_two haccept habandon, halone, rfl, rspData_applyReset _, rfl,
    (rspData_applyReset _).trans (rspData_applyReset _).symm, rfl, cmdReady_applyReset _, rfl⟩

end Sys2Proof

/-! PROOFS. Command words and source commands (spec/30_encoding.md): the decoder and the encoder undo each other, the
words with either operation, and the operands of a source command. -/

namespace Sys2Proof

/-! ### The encoder undoes the decoder -/

/-- The three fields of a word, side by side again, are the word (rule R35). -/
@[simp] theorem joinFields_of_word (w : CmdWord) : joinFields (opField w) (keyField w) (blockField w) = w := by
  have hw : w.toNat < 32768 := w.isLt
  refine BitVec.eq_of_toNat_eq ?_
  rw [joinFields_toNat, opField_toNat, keyField_toNat, blockField_toNat]
  omega

theorem encode_decodeFields (op : BitVec 1) (key : Key) (block : Block) :
    encode (decodeFields op key block) = joinFields op key block := by
  obtain rfl | rfl := op_cases op <;> rfl

theorem encode_decodeWord (w : CmdWord) : encode (decodeWord w) = w := by
  rw [decodeWord, encode_decodeFields, joinFields_of_word]

/-! ### The decoder on numbers -/

theorem decodeNat_of_lt {w : Nat} (h : w < 32768) : decodeNat w = .ok (decodeWord (BitVec.ofNat 15 w)) := if_pos h

theorem decodeNat_of_ge {w : Nat} (h : 32768 ≤ w) : decodeNat w = .error .widerThanCmd15 := if_neg (Nat.not_lt.mpr h)

theorem exists_decodeNat_eq_ok_iff (w : Nat) : (∃ i, decodeNat w = .ok i) ↔ w < 32768 := by
  rcases Nat.lt_or_ge w 32768 with h | h
  · simp [decodeNat_of_lt h, h]
  · simp [decodeNat_of_ge h, h]

/-- A table word of 16 bits whose top bit is 0 is the command word of the same number. -/
theorem decodeTableWord_of_lt {w : Nat} (h : w < 32768) :
    decodeTableWord 16 w = some (decodeWord (BitVec.ofNat 15 w)) := by
  have hmod : w % 2 ^ 16 = w := Nat.mod_eq_of_lt (by omega)
  rw [decodeTableWord, hmod, decodeNat_of_lt h]

theorem decodeTableWord_toNat (w : CmdWord) : decodeTableWord 16 w.toNat = some (decodeWord w) := by
  rw [decodeTableWord_of_lt w.isLt, BitVec.ofNat_toNat, BitVec.setWidth_eq]

/-! ### Which words are ENC and which are DEC -/

theorem exists_decodeWord_eq_enc_iff (w : CmdWord) : (∃ b k, decodeWord w = .enc b k) ↔ opField w = 0#1 := by
  obtain h | h := op_cases (opField w) <;> simp [decodeWord, decodeFields, h]

theorem exists_decodeWord_eq_dec_iff (w : CmdWord) : (∃ b k, decodeWord w = .dec b k) ↔ opField w = 1#1 := by
  obtain h | h := op_cases (opField w) <;> simp [decodeWord, decodeFields, h]

/-- The operation bit of a number below 32768 is its quotient by 16384 (rule R35). -/
theorem opField_ofNat_toNat {w : Nat} (h : w < 32768) : (opField (BitVec.ofNat 15 w)).toNat = w / 16384 :=
  (opField_toNat _).trans (congrArg (· / 16384) (Nat.mod_eq_of_lt h))

/-- The lower half of the words are ENC (rule R38). -/
theorem exists_decodeTableWord_eq_enc_iff {w : Nat} (h : w < 32768) :
    (∃ b k, decodeTableWord 16 w = some (.enc b k)) ↔ w < 16384 := by
  simp only [decodeTableWord_of_lt h, Option.some.injEq, exists_decodeWord_eq_enc_iff]
  rw [← BitVec.toNat_inj, opField_ofNat_toNat h, BitVec.toNat_ofNat]
  omega

/-- The upper half of the words are DEC (rule R38). -/
theorem exists_decodeTableWord_eq_dec_iff {w : Nat} (h : w < 32768) :
    (∃ b k, decodeTableWord 16 w = some (.dec b k)) ↔ 16384 ≤ w := by
  simp only [decodeTableWord_of_lt h, Option.some.injEq, exists_decodeWord_eq_dec_iff]
  rw [← BitVec.toNat_inj, opField_ofNat_toNat h, BitVec.toNat_ofNat]
  omega

theorem filter_enc_words : (Finset.range 32768).filter (fun w => ∃ b k, decodeTableWord 16 w = some (.enc b k)) =
    Finset.range 16384 := by
  ext w
  rw [Finset.mem_filter, Finset.mem_range, Finset.mem_range,
    and_congr_right fun h => exists_decodeTableWord_eq_enc_iff h]
  omega

theorem filter_dec_words : (Finset.range 32768).filter (fun w => ∃ b k, decodeTableWord 16 w = some (.dec b k)) =
    Finset.Ico 16384 32768 := by
  ext w
  rw [Finset.mem_filter, Finset.mem_range, Finset.mem_Ico,
    and_congr_right fun h => exists_decodeTableWord_eq_dec_iff h, and_comm]

/-- Settles O2: each field of the encoded command is read back as it went in, and every word has a number that is a
table word. -/
theorem decodeOfEncodedCommand : Obligations.DecodeOfEncodedCommand := by
  refine fun i => ⟨decodeWord_encode i, ?_⟩
  rw [decodeTableWord_toNat, decodeWord_encode]

/-- Settles O3: the decoder keeps all three fields, and the fields side by side are the word. -/
theorem encodeOfDecodedWord : Obligations.EncodeOfDecodedWord := encode_decodeWord

/-- Settles O4: the operation bit splits the words at 16384. -/
theorem everyWordIsEncOrDec : Obligations.EveryWordIsEncOrDec :=
  ⟨exists_decodeNat_eq_ok_iff, by rw [filter_enc_words, Finset.card_range], by rw [filter_dec_words, Nat.card_Ico]⟩

/-- Settles O1: the nine words of the table are evaluated. -/
theorem specWordsDecode : Obligations.SpecWordsDecode := by
  unfold Obligations.SpecWordsDecode
  decide

end Sys2Proof

namespace Sys2Proof.Machine

/-! ### The operands of a source command -/

/-- The fields of a word do not overlap, so putting them side by side is the bitwise or of rule R41. -/
theorem joinFields_toNat_eq_or (op : BitVec 1) (key : Key) (block : Block) :
    (joinFields op key block).toNat = op.toNat <<< 14 ||| key.toNat <<< 8 ||| block.toNat := by
  simp only [joinFields, BitVec.toNat_append, Nat.shiftLeft_or_distrib, ← Nat.shiftLeft_add]

theorem truncateBlock_toNat (block : Nat) : (truncateBlock block).toNat = block % 256 := BitVec.toNat_ofNat block 8

theorem truncateKey_toNat (key : Nat) : (truncateKey key).toNat = key % 64 := BitVec.toNat_ofNat key 6

/-- A block literal in range is not changed by the truncation. -/
@[simp] theorem truncateBlock_of_toNat (b : Block) : truncateBlock b.toNat = b := by
  rw [truncateBlock, BitVec.ofNat_toNat, BitVec.setWidth_eq]

/-- A key literal in range is not changed by the truncation. -/
@[simp] theorem truncateKey_of_toNat (k : Key) : truncateKey k.toNat = k := by
  rw [truncateKey, BitVec.ofNat_toNat, BitVec.setWidth_eq]

/-- The truncation does not see what it cuts off (rule R43). -/
theorem truncateBlock_mod (block : Nat) : truncateBlock (block % 256) = truncateBlock block :=
  BitVec.eq_of_toNat_eq (by rw [truncateBlock_toNat, truncateBlock_toNat, Nat.mod_mod])

theorem truncateKey_mod (key : Nat) : truncateKey (key % 64) = truncateKey key :=
  BitVec.eq_of_toNat_eq (by rw [truncateKey_toNat, truncateKey_toNat, Nat.mod_mod])

theorem sourceWord_enc (b : Block) (k : Key) :
    sourceWord { op := .enc, block := b.toNat, key := k.toNat } = some (encode (.enc b k)) := by
  simp [sourceWord]

theorem sourceWord_dec (b : Block) (k : Key) :
    sourceWord { op := .dec, block := b.toNat, key := k.toNat } = some (encode (.dec b k)) := by
  simp [sourceWord]

/-- The host sees the operands of a source command only through the truncation. -/
theorem hostRunSource_mod (op : SourceOp) (b k : Nat) (s : State) :
    hostRunSource { op := op, block := b % 256, key := k % 64 } s =
      hostRunSource { op := op, block := b, key := k } s := by
  cases op <;> simp only [hostRunSource, truncateBlock_mod, truncateKey_mod]

theorem checkRange_of_wide_block {c : SourceCommand} (h : 255 < c.block) :
    checkRange c = .error .blockOutOfRange := by
  have hblock : c.blockFits = false := decide_eq_false (by omega)
  simp [checkRange, hblock]

theorem checkRange_of_wide_key {c : SourceCommand} (hb : c.block ≤ 255) (hk : 63 < c.key) :
    checkRange c = .error .keyOutOfRange := by
  have hblock : c.blockFits = true := decide_eq_true (by omega)
  have hkey : c.keyFits = false := decide_eq_false (by omega)
  simp [checkRange, hblock, hkey]

theorem checkRange_of_fits {c : SourceCommand} (hb : c.block ≤ 255) (hk : c.key ≤ 63) : checkRange c = .ok c := by
  have hblock : c.blockFits = true := decide_eq_true (by omega)
  have hkey : c.keyFits = true := decide_eq_true (by omega)
  simp [checkRange, hblock, hkey]

end Sys2Proof.Machine

namespace Sys2Proof

open Sys2Proof.Machine

/-- Settles O53: a literal in range survives the truncation, and the word's fields do not overlap; the two lines are
evaluated. -/
theorem assembledWords : Obligations.AssembledWords := by
  refine ⟨fun b k => ⟨?_, ?_⟩, by decide⟩
  · exact ⟨_, sourceWord_enc b k, joinFields_toNat_eq_or 0#1 k b⟩
  · exact ⟨_, sourceWord_dec b k, joinFields_toNat_eq_or 1#1 k b⟩

/-- Settles O54: the driver keeps the operands modulo their ranges; the range check has one answer for a wide block, one
for a wide key, and one for two operands in range. -/
theorem wideOperands : Obligations.WideOperands := by
  refine ⟨fun b k => ⟨truncateBlock_toNat b, truncateKey_toNat k⟩,
    fun op b k s => (hostRunSource_mod op b k s).symm, fun c => ?_⟩
  rcases Nat.lt_or_ge 255 c.block with hb | hb
  · simp [checkRange_of_wide_block hb, hb]
  · rcases Nat.lt_or_ge 63 c.key with hk | hk
    · simp [checkRange_of_wide_key hb hk, hk]
    · simp [checkRange_of_fits hb hk, hb, hk]

end Sys2Proof

/-! PROOFS. The two commands (spec/45_feistel_round.md sections 3 and 4, spec/46_cascade.md): what the host gets from a
command it presents, from the three commands of a pseudo-instruction, and the half that is carried. -/

namespace Sys2Proof.Machine

/-! ### The host's commands -/

/-- Nothing of an earlier completion is left after a later one (rule R118). -/
@[simp] theorem complete_complete (r r' : BitVec 8) (s : State) : complete r (complete r' s) = complete r s := rfl

/-- A presented command completes with its result whatever the engine was doing (log entry 4). -/
theorem hostRun_eq_complete (i : Instr) (s : State) : hostRun i s = .next (complete (resultOf i) s) :=
  step_of_presents (s := presentNext (presenting (encode i)) s) rfl rfl

/-- After a completion the host goes on with the result. -/
theorem withResult_complete (go : BitVec 8 → State → Host.Outcome State Fault Refusal) (r : BitVec 8) (s : State) :
    withResult go (.next (complete r s)) = go r (complete r s) := by
  rw [withResult, rspData_complete]

theorem hostEnc3_eq_complete (b : Block) (k : Key) (s : State) :
    hostEnc3 b k s = .next (complete (encrypt3 b k) s) := by
  simp only [hostEnc3, hostRun_eq_complete, withResult_complete, complete_complete]
  rfl

theorem hostDec3_eq_complete (c : Block) (k : Key) (s : State) :
    hostDec3 c k s = .next (complete (decrypt3 c k) s) := by
  simp only [hostDec3, hostRun_eq_complete, withResult_complete, complete_complete]
  rfl

end Sys2Proof.Machine

namespace Sys2Proof

open Sys2Proof.Machine

/-- Settles O27: on halves, each operation joins the half that passed through `F` to the mixed one. -/
theorem carriedHalf : Obligations.CarriedHalf := by
  intro b k
  obtain ⟨x, y, rfl⟩ := block_cases b
  rw [encrypt_joinHalves, decrypt_joinHalves, blockHalves_joinHalves, blockHalves_joinHalves, blockHalves_joinHalves]
  exact ⟨rfl, rfl⟩

/-- Settles O33: in either state the command completes with the result of its operands. -/
theorem resultIndependentOfState : Obligations.ResultIndependentOfState := fun i s s' =>
  ⟨_, _, hostRun_eq_complete i s, hostRun_eq_complete i s', rspData_complete _ s, rspData_complete _ s'⟩

/-- Settles O51: the three commands are one completion with the result of the third; the example is evaluated. -/
theorem hostEnc3Result : Obligations.HostEnc3 :=
  ⟨fun b k s => ⟨_, hostEnc3_eq_complete b k s, rfl, rfl, rfl, rfl, rfl⟩, by decide⟩

/-- Settles O52: the three commands are one completion with the result of the third; the example is evaluated. -/
theorem hostDec3Result : Obligations.HostDec3 :=
  ⟨fun c k s => ⟨_, hostDec3_eq_complete c k s, rfl, rfl, rfl, rfl, rfl⟩, by decide⟩

/-- Settles O29: the trace of the scenario is evaluated. -/
theorem scenarioTrace : Obligations.ScenarioTrace := by
  unfold Obligations.ScenarioTrace
  decide

/-- Settles O30: a command is one completion with its result, and equal halves that `F` gives zeros for are a fixed
point; the corner cases are evaluated. -/
theorem encCompletes : Obligations.EncCompletes := by
  refine ⟨fun block key s => exec_eq_complete (.enc block key) s, fun _ _ => rfl, fun block key s hhalves hzeros => ?_,
    by decide⟩
  have hfix : encrypt block key = block := (encrypt_eq_self_iff block key).mpr ⟨hhalves, hzeros⟩
  rw [exec_eq_complete, resultOf, hfix]

/-- Settles O31: a command is one completion with its result; the corner cases are evaluated. -/
theorem decCompletes : Obligations.DecCompletes :=
  ⟨fun block key s => exec_eq_complete (.dec block key) s, fun _ _ => rfl, by decide⟩

/-- Settles O32: a command answers its completion only, which writes none of the two fields. -/
theorem commandFrame : Obligations.CommandFrame := by
  intro i s t h
  rw [exec_eq_complete] at h
  cases h
  exact ⟨rfl, rfl⟩

end Sys2Proof

/-! PROOFS. Acceptance, completion and order (spec/10_state.md, spec/20_memory.md, spec/60_exceptions.md and
spec/70_reset_and_hazards.md): the steps of a ready and of a busy engine, the agreement of the registers, the host's duty,
and sequences of commands. -/

namespace Sys2Proof.Machine

/-! ### The two kinds of port events as one -/

/-- The ports at an instant, as the event in which an accepted command completes in the same step or does not. -/
def portsEvent (whole : Bool) (p : Ports) : Event := if whole then .instant p else .acceptance p

theorem step_of_portsEvent {s : State} {whole : Bool} {p : Ports} {rest : List Event}
    (ha : s.agenda = portsEvent whole p :: rest) : step s = onPorts whole p rest s := by
  cases whole with
  | true => exact step_of_instant ha
  | false => exact step_of_acceptance ha

theorem exists_portsEvent {e : Event} {p : Ports} (h : e = .instant p ∨ e = .acceptance p) :
    ∃ whole, e = portsEvent whole p := by
  obtain rfl | rfl := h
  · exact ⟨true, rfl⟩
  · exact ⟨false, rfl⟩

/-- What an event can be. -/
theorem event_cases (e : Event) : (∃ whole p, e = portsEvent whole p) ∨ e = .completion ∨ e = .useDout := by
  cases e with
  | instant p => exact .inl ⟨true, p, rfl⟩
  | acceptance p => exact .inl ⟨false, p, rfl⟩
  | completion => exact .inr (.inl rfl)
  | useDout => exact .inr (.inr rfl)

@[simp] theorem eventResets_portsEvent (whole : Bool) (p : Ports) : eventResets (portsEvent whole p) = p.rst := by
  cases whole <;> rfl

/-- The duty over a port event (rule R115): what the registers are after it does not depend on whether a command that
waits is accepted now or after the one in progress. -/
theorem hostDutiful_portsEvent (done busy whole : Bool) (p : Ports) (rest : List Event) :
    hostDutiful done busy (portsEvent whole p :: rest) =
      if p.rst then hostDutiful false false rest
      else if p.cmdValid then hostDutiful whole (!whole) rest
      else hostDutiful done busy rest := by
  cases whole <;> rfl

/-! ### The command on the ports -/

/-- The ports are the fields of the word they make (rules R35, R36). -/
theorem portsCommand_eq_decodeFields (p : Ports) :
    portsCommand p = decodeFields p.cmdOp p.cmdKey p.cmdBlock := by
  simp [portsCommand, portsWord, decodeWord]

theorem portsCommand_presenting (w : CmdWord) : portsCommand (presenting w) = decodeWord w :=
  portsCommand_eq_decodeFields (presenting w)

/-- A command word as a number is presented as it is. -/
theorem presentingNat_toNat (w : CmdWord) : presentingNat w.toNat = presenting w := by
  rw [presentingNat, if_pos w.isLt, BitVec.ofNat_toNat, BitVec.setWidth_eq]

theorem withFetchWord_toNat (w : CmdWord) (s : State) :
    s.withFetchWord 16 w.toNat = presentNext (presenting w) s := by
  have hmod : w.toNat % 2 ^ 16 = w.toNat := Nat.mod_eq_of_lt (w.isLt.trans (by decide))
  rw [State.withFetchWord, presentTableWord, hmod, presentingNat_toNat]

/-! ### Steps -/

/-- A command presented to a ready engine runs with the fields on the ports (rules R28, R36). -/
theorem step_of_ready {s : State} {p : Ports} {rest : List Event} (ha : s.agenda = .instant p :: rest)
    (hr : p.rst = false) (hv : p.cmdValid = true) (hs : s.inFlight = none) :
    step s = exec (portsCommand p) (setAgenda rest s) := by
  rw [step_of_instant ha, onPorts, cmdReady_eq_true.mpr hs]
  simp [hr, hv]

/-- A command presented to a busy engine waits while the one in progress completes (rules R29, R114). -/
theorem step_of_waiting {s : State} {i : Instr} {whole : Bool} {p : Ports} {rest : List Event}
    (ha : s.agenda = portsEvent whole p :: rest) (hs : s.inFlight = some i) (hr : p.rst = false)
    (hv : p.cmdValid = true) : step s = .next (complete (resultOf i) s) := by
  rw [step_of_portsEvent ha, onPorts, cmdReady, hs, finishInFlight_of_some hs]
  simp [hr, hv]

/-- With nothing presented only the event goes (rule R106). -/
theorem step_of_idle {s : State} {whole : Bool} {p : Ports} {rest : List Event}
    (ha : s.agenda = portsEvent whole p :: rest) (hr : p.rst = false) (hv : p.cmdValid = false) :
    step s = .next (setAgenda rest s) := by
  rw [step_of_portsEvent ha, onPorts]
  simp [hr, hv]

theorem step_of_completion_busy {s : State} {i : Instr} {rest : List Event} (ha : s.agenda = .completion :: rest)
    (hs : s.inFlight = some i) : step s = .next (complete (resultOf i) (setAgenda rest s)) := by
  rw [step_of_completion ha]
  exact finishInFlight_of_some (s := setAgenda rest s) hs

theorem step_of_useDout_done {s : State} {rest : List Event} (ha : s.agenda = .useDout :: rest)
    (hd : s.done = true) : step s = .next (setAgenda rest s) := by
  rw [step_of_useDout ha]
  exact hostUseDout_of_done (s := setAgenda rest s) hd

theorem step_of_useDout_not_done {s : State} {rest : List Event} (ha : s.agenda = .useDout :: rest)
    (hd : s.done = false) : step s = .refused .doutNotValid := by
  rw [step_of_useDout ha]
  exact hostUseDout_of_not_done (s := setAgenda rest s) hd

/-! ### Which steps answer a state -/

theorem onPorts_answers (whole : Bool) (p : Ports) (rest : List Event) (s : State) :
    ∃ t, onPorts whole p rest s = .next t := by
  obtain ⟨_, e⟩ | ⟨_, _, e⟩ | ⟨_, _, _, _, e⟩ | ⟨_, _, _, _, e⟩ | ⟨_, _, _, _, e⟩ := onPorts_cases whole p rest s
  all_goals exact ⟨_, e⟩

theorem finishInFlight_answers (s : State) : ∃ t, finishInFlight s = .next t := by
  cases hs : s.inFlight with
  | none => exact ⟨_, finishInFlight_of_none hs⟩
  | some i => exact ⟨_, finishInFlight_of_some hs⟩

/-- A step answers a state, or it is the use of `DOUT` while `DONE = 0` (rules R98, R101). -/
theorem step_answers_or_refused (s : State) : (∃ t, step s = .next t) ∨
    (s.done = false ∧ ∃ rest, s.agenda = .useDout :: rest) := by
  cases ha : s.agenda with
  | nil =>
    rw [step_of_no_event ha]
    exact .inl (finishInFlight_answers s)
  | cons e rest =>
    obtain ⟨whole, p, rfl⟩ | rfl | rfl := event_cases e
    · rw [step_of_portsEvent ha]
      exact .inl (onPorts_answers whole p rest s)
    · rw [step_of_completion ha]
      exact .inl (finishInFlight_answers _)
    · cases hd : s.done with
      | true => exact .inl ⟨_, step_of_useDout_done ha hd⟩
      | false => exact .inr ⟨rfl, rest, rfl⟩

/-! ### The registers agree -/

theorem registersAgree_setAgenda {s : State} (h : RegistersAgree s) (events : List Event) :
    RegistersAgree (setAgenda events s) := h

theorem registersAgree_complete (r : BitVec 8) (s : State) : RegistersAgree (complete r s) :=
  ⟨fun _ => rfl, fun h => (nomatch h)⟩

/-- An acceptance gives `DOUT` the next free value, which then counts as used (log entries 1 and 2). -/
theorem registersAgree_accept (i : Instr) (s : State) : RegistersAgree (accept i s) :=
  ⟨fun h => (nomatch h), fun _ => ⟨s.freeIx, Nat.lt_succ_self _, rfl⟩⟩

theorem registersAgree_applyReset (s : State) : RegistersAgree (applyReset s) :=
  ⟨fun h => (nomatch h), fun _ => ⟨s.freeIx, Nat.lt_succ_self _, rfl⟩⟩

theorem step_registersAgree {s t : State} (hs : RegistersAgree s) (h : step s = .next t) : RegistersAgree t := by
  obtain ⟨a, rfl⟩ | ⟨a, rfl⟩ | ⟨i, a, rfl⟩ | ⟨i, a, -, rfl⟩ := step_cases h
  · exact registersAgree_setAgenda hs a
  · exact registersAgree_applyReset _
  · exact registersAgree_complete _ _
  · exact registersAgree_accept i _

/-! ### The host's duty -/

/-- A port event keeps the duty: a reset, an idle instant and a completed or accepted command leave the registers the
duty counts on, and a command that waits does so after its next step. -/
theorem step_dutiful_of_portsEvent {s : State} {whole : Bool} {p : Ports} {rest : List Event}
    (ha : s.agenda = portsEvent whole p :: rest) (h : Dutiful s) : ∃ t, step s = .next t ∧ Dutiful t := by
  rw [Dutiful, ha, hostDutiful_portsEvent] at h
  rw [step_of_portsEvent ha]
  obtain ⟨hr, e⟩ | ⟨hr, hv, e⟩ | ⟨hr, hv, -, rfl, e⟩ | ⟨hr, hv, -, rfl, e⟩ | ⟨hr, hv, i, -, e⟩ :=
    onPorts_cases whole p rest s
  · exact ⟨_, e, by simpa [Dutiful, hr] using h⟩
  · exact ⟨_, e, by simpa [Dutiful, hr, hv] using h⟩
  · exact ⟨_, e, by simpa [Dutiful, hr, hv] using h⟩
  · exact ⟨_, e, by simpa [Dutiful, hr, hv] using h⟩
  · exact ⟨_, e, by simpa [Dutiful, ha, hostDutiful_portsEvent, hr, hv] using h⟩

theorem finishInFlight_dutiful {s : State} (h : hostDutiful (s.done || s.inFlight.isSome) false s.agenda = true) :
    ∃ t, finishInFlight s = .next t ∧ Dutiful t := by
  cases hs : s.inFlight with
  | none => exact ⟨_, finishInFlight_of_none hs, by simpa [Dutiful, hs] using h⟩
  | some i => exact ⟨_, finishInFlight_of_some hs, by simpa [Dutiful, hs] using h⟩

theorem step_dutiful {s : State} (h : Dutiful s) : ∃ t, step s = .next t ∧ Dutiful t := by
  cases ha : s.agenda with
  | nil =>
    rw [step_of_no_event ha]
    exact finishInFlight_dutiful (by rw [ha]; rfl)
  | cons e rest =>
    obtain ⟨whole, p, rfl⟩ | rfl | rfl := event_cases e
    · exact step_dutiful_of_portsEvent ha h
    · rw [step_of_completion ha]
      rw [Dutiful, ha] at h
      exact finishInFlight_dutiful h
    · rw [Dutiful, ha, hostDutiful, Bool.and_eq_true] at h
      obtain ⟨hd, hrest⟩ := h
      exact ⟨_, step_of_useDout_done ha hd, hrest⟩

/-! ### A command in progress -/

/-- A step of a busy engine without reset, at the first of its events: the command completes, or nothing but the event
goes. -/
theorem step_of_busy {s : State} {i : Instr} {e : Event} {rest : List Event} (ha : s.agenda = e :: rest)
    (hs : s.inFlight = some i) (h : Dutiful s) (he : eventResets e = false) :
    (∃ a, step s = .next (complete (resultOf i) (setAgenda a s))) ∨ step s = .next (setAgenda rest s) := by
  obtain ⟨whole, p, rfl⟩ | rfl | rfl := event_cases e
  · rw [eventResets_portsEvent] at he
    cases hv : p.cmdValid with
    | true => exact .inl ⟨s.agenda, step_of_waiting ha hs he hv⟩
    | false => exact .inr (step_of_idle ha he hv)
  · exact .inl ⟨rest, step_of_completion_busy ha hs⟩
  · rw [Dutiful, ha, hostDutiful, Bool.and_eq_true] at h
    obtain ⟨hd, -⟩ := h
    exact .inr (step_of_useDout_done ha hd)

/-- A command in progress completes within one step more than there are events (rule R120). -/
theorem run_of_busy (events : List Event) {s : State} {i : Instr} (ha : s.agenda = events) (hs : s.inFlight = some i)
    (h : Dutiful s) (he : ∀ e ∈ events, eventResets e = false) :
    ∃ k u, k ≤ events.length + 1 ∧ core.run k s = .next (complete (resultOf i) u) := by
  induction events generalizing s with
  | nil =>
    have hstep : step s = .next (complete (resultOf i) s) := by
      rw [step_of_no_event ha, finishInFlight_of_some hs]
    exact ⟨1, s, le_rfl, run_succ hstep 0⟩
  | cons e rest ih =>
    rw [List.forall_mem_cons] at he
    obtain ⟨he, hrest⟩ := he
    obtain ⟨a, hstep⟩ | hstep := step_of_busy ha hs h he
    · exact ⟨1, _, by omega, run_succ hstep 0⟩
    · have hduty : Dutiful (setAgenda rest s) := by
        obtain ⟨t, ht, hduty⟩ := step_dutiful h
        rw [hstep] at ht
        cases ht
        exact hduty
      obtain ⟨k, u, hk, hrun⟩ := ih (s := setAgenda rest s) rfl hs hduty hrest
      exact ⟨k + 1, u, by simpa using hk, by rw [run_succ hstep, hrun]⟩

/-! ### Sequences of commands -/

/-- Commands that each run as one step, from a ready engine: the last completion is the only one that shows. -/
theorem run_presents (cs : List Instr) (i : Instr) (rest : List Event) {s : State} (hs : s.inFlight = none) :
    core.run (cs.length + 1) (setAgenda (cs.map presents ++ presents i :: rest) s) =
      .next (complete (resultOf i) (setAgenda rest s)) := by
  induction cs generalizing s with
  | nil => exact run_succ (step_of_presents (s := setAgenda (presents i :: rest) s) rfl hs) 0
  | cons c cs ih =>
    have hstep := step_of_presents (s := setAgenda (presents c :: (cs.map presents ++ presents i :: rest)) s) rfl hs
    exact (run_succ hstep _).trans (ih (s := complete (resultOf c) s) rfl)

/-- The event in which a command is presented, to run as one step or to be only accepted. -/
def presentsEither (c : Bool × Instr) : Event := if c.1 then presents c.2 else presentsOpen c.2

/-- However many commands stand before the last one, one is presented first. -/
theorem exists_presented_first (cs : List (Bool × Instr)) (i : Instr) (rest : List Event) :
    ∃ whole j later, cs.map presentsEither ++ presents i :: rest = portsEvent whole (presenting (encode j)) :: later := by
  cases cs with
  | nil => exact ⟨true, i, rest, rfl⟩
  | cons c cs => exact ⟨c.1, c.2, _, rfl⟩

/-- A ready engine is ready again, with the other commands to come, after one step when the first command runs as one,
and after two when it is only accepted: it then completes because the next one waits (rules R12, R29). -/
theorem ready_after_presentsEither (c : Bool × Instr) {events later : List Event} {whole : Bool} {j : Instr}
    (hnext : events = portsEvent whole (presenting (encode j)) :: later) {s : State} (hs : s.inFlight = none) :
    ∃ m u, m ≤ 2 ∧ u.inFlight = none ∧
      ∀ k, core.run (k + m) (setAgenda (presentsEither c :: events) s) = core.run k (setAgenda events u) := by
  obtain ⟨atOnce, i⟩ := c
  cases atOnce with
  | true =>
    have hstep := step_of_presents (s := setAgenda (presents i :: events) s) rfl hs
    exact ⟨1, complete (resultOf i) s, by omega, rfl, run_succ hstep⟩
  | false =>
    have haccept := step_of_presentsOpen (s := setAgenda (presentsOpen i :: events) s) rfl hs
    have hfinish := step_of_waiting (s := accept i (setAgenda events s)) hnext rfl rfl rfl
    exact ⟨2, complete (resultOf i) (accept i s), le_rfl, rfl,
      fun k => (run_succ haccept (k + 1)).trans (run_succ hfinish k)⟩

theorem run_presentsEither (cs : List (Bool × Instr)) (i : Instr) (rest : List Event) {s : State}
    (hs : s.inFlight = none) : ∃ k u, k ≤ 2 * cs.length + 1 ∧
      core.run k (setAgenda (cs.map presentsEither ++ presents i :: rest) s) =
        .next (complete (resultOf i) (setAgenda rest u)) := by
  induction cs generalizing s with
  | nil => exact ⟨1, s, le_rfl, run_presents [] i rest hs⟩
  | cons c cs ih =>
    obtain ⟨whole, j, later, hnext⟩ := exists_presented_first cs i rest
    obtain ⟨m, u, hm, hu, hfirst⟩ := ready_after_presentsEither c hnext hs
    obtain ⟨k, v, hk, hrun⟩ := ih hu
    exact ⟨k + m, v, by rw [List.length_cons]; omega, (hfirst k).trans hrun⟩

end Sys2Proof.Machine

namespace Sys2Proof

open Sys2Proof.Machine

/-- Settles O43: an acceptance and a reset give `DOUT` a free value, a completion clears the latch, and every other step
leaves the registers. -/
theorem stepKeepsRegistersAgree : Obligations.StepKeepsRegistersAgree := fun _ _ => step_registersAgree

/-- Settles O47: event by event, the duty speaks of the registers the step leaves. -/
theorem dutifulHostNeverRefused : Obligations.DutifulHostNeverRefused := fun _ => step_dutiful

/-- Settles O38: the completion of the accepted command and of the command run as one step write the same registers. -/
theorem acceptanceThenCompletion : Obligations.AcceptanceThenCompletion := by
  intro s i rest hs
  have haccept := step_of_presentsOpen (s := setAgenda (presentsOpen i :: .completion :: rest) s) rfl hs
  have hfinish := step_of_completion_busy (s := accept i (setAgenda (.completion :: rest) s)) rfl rfl
  have hwhole := step_of_presents (s := setAgenda (presents i :: rest) s) rfl hs
  exact ⟨_, _, _, haccept, rfl, rspData_of_not_done rfl, rfl, hfinish, rfl, rfl, rfl, rfl, hwhole, rfl, rfl, rfl, rfl⟩

/-- Settles O39: the step is the completion of the command in progress, which leaves the events to come. -/
theorem busyEngineCompletesFirst : Obligations.BusyEngineCompletesFirst := by
  intro s i p rest e hs hr hv he
  obtain ⟨whole, rfl⟩ := exists_portsEvent he
  have hstep := step_of_waiting (s := setAgenda (portsEvent whole p :: rest) s) rfl hs hr hv
  exact ⟨_, hstep, rfl, rfl, rfl, rfl⟩

/-- Settles O41, by induction on the commands before the last one. -/
theorem sequenceEndsWithLastResult : Obligations.SequenceEndsWithLastResult := fun cs i rest _ hs =>
  ⟨_, run_presents cs i rest hs, rfl, rfl, rfl, rfl, rfl⟩

/-- Settles O42, by induction on the commands before the last one, each of which takes one step or two. -/
theorem splitSequenceEndsWithLastResult : Obligations.SplitSequenceEndsWithLastResult := by
  intro cs i rest s hs
  obtain ⟨k, u, hk, hrun⟩ := run_presentsEither cs i rest hs
  exact ⟨k, _, hk, hrun, rspData_complete _ _, rfl, rfl⟩

/-- Settles O45: a step that is not the early use answers a state, and the early use is refused by its one name. -/
theorem onlyEarlyUseIsRefused : Obligations.OnlyEarlyUseIsRefused := by
  intro s
  obtain ⟨t, hnext⟩ | ⟨hd, rest, ha⟩ := step_answers_or_refused s
  · rw [hnext]
    refine ⟨fun _ hf => (nomatch hf), fun r => ⟨fun hr => (nomatch hr), ?_⟩⟩
    rintro ⟨-, hd, rest, ha⟩
    rw [step_of_useDout_not_done ha hd] at hnext
    cases hnext
  · rw [step_of_useDout_not_done ha hd]
    refine ⟨fun _ hf => (nomatch hf), fun r => ⟨?_, ?_⟩⟩
    · rintro ⟨⟩
      exact ⟨rfl, hd, rest, ha⟩
    · rintro ⟨rfl, -⟩
      rfl

/-- Settles O48, by induction on the events to come: each that does not complete the command leaves it in progress. -/
theorem acceptedCommandCompletes : Obligations.AcceptedCommandCompletes := by
  intro s i hs h he
  obtain ⟨k, u, hk, hrun⟩ := run_of_busy s.agenda rfl hs h he
  exact ⟨k, _, hk, hrun, rfl, rfl, rfl⟩

/-- Settles O34: the ports side by side are the command word, and a table word on the ports is the word itself. -/
theorem stepRunsPresentedCommand : Obligations.StepRunsPresentedCommand := by
  refine ⟨fun s p rest hr hv hs => ?_, fun s w => ?_⟩
  · rw [← portsCommand_eq_decodeFields]
    exact step_of_ready (s := setAgenda (.instant p :: rest) s) rfl hr hv hs
  · rw [withFetchWord_toNat, ← portsCommand_presenting]
    exact step_of_ready (s := presentNext (presenting w) s) rfl rfl rfl rfl

/-- Settles O35: the four fields of the reset state. -/
theorem resetStateRegisters : Obligations.ResetStateRegisters := ⟨rfl, rfl, rfl, rfl⟩

/-- Settles O44: after reset `DOUT` holds the free value of index 0. -/
theorem resetRegistersAgree : Obligations.ResetRegistersAgree :=
  ⟨fun h => (nomatch h), fun _ => ⟨0, Nat.zero_lt_one, rfl⟩⟩

/-- Settles O46: the port and the use both look at `DONE` only. -/
theorem useOfDout : Obligations.UseOfDout := fun s rest =>
  ⟨fun hd => ⟨rspData_of_done hd, step_of_useDout_done (s := setAgenda (.useDout :: rest) s) rfl hd⟩,
    fun hd => ⟨rspData_of_not_done hd, step_of_useDout_not_done (s := setAgenda (.useDout :: rest) s) rfl hd⟩⟩

/-- Settles O49: nothing to finish and nothing presented. -/
theorem idleEngineHolds : Obligations.IdleEngineHolds := by
  refine ⟨fun s hs ha => ?_, fun s p rest e hr hv he => ?_⟩
  · rw [step_of_no_event ha, finishInFlight_of_none hs]
  · obtain ⟨whole, rfl⟩ := exists_portsEvent he
    exact step_of_idle (s := setAgenda (portsEvent whole p :: rest) s) rfl hr hv

end Sys2Proof
